-- ==== Sys2Proof/Word.lean ====
section
/-! DEFINITION. The two word types of the machine (spec/10_state.md R20). Every value is unsigned (R9). -/

namespace Sys2Proof

/-- One byte: a general register, a timer, a memory cell, the literal `NN`. -/
abbrev Byte := BitVec 8

/-- Sixteen bits: the program counter, the index register, a stack entry, an instruction word. -/
abbrev Word := BitVec 16

/-- The number of a general register V0 to VF (R21): a 4-bit field, so no number is out of range. -/
abbrev Reg := Fin 16

end Sys2Proof
end

