-- ==== Sys2Proof/Machine/Flags.lean ====
section
/-! DEFINITION. The 8-bit results and the values of VF (spec/42_load_and_alu.md R130, spec/10_state.md R29). -/

namespace Sys2Proof.Machine

/-- A flag as the byte VF holds. -/
def flagByte (b : Bool) : Byte := if b then 1 else 0

/-- `8XY4`: carry out, 1 iff a + b > 255 (R137). -/
def carryFlag (a b : Byte) : Byte := flagByte (255 < a.toNat + b.toNat)

/-- `8XY5` and, with the operands exchanged, `8XY7`: 1 iff a − b needs no borrow (R138, R140). -/
def noBorrowFlag (a b : Byte) : Byte := flagByte (b.toNat ≤ a.toNat)

/-- `8XY6`: the bit shifted out on the right (R139). -/
def lowBitFlag (a : Byte) : Byte := flagByte (a.getLsbD 0)

/-- `8XYE`: the bit shifted out on the left (R141). -/
def highBitFlag (a : Byte) : Byte := flagByte (a.getLsbD 7)

/-- `FX1E`: 1 iff the unreduced sum of `I` and the register exceeds the last address of memory (R152). -/
def indexOverflowFlag (i : Word) (a : Byte) : Byte := flagByte (0x0FFF < i.toNat + a.toNat)

end Sys2Proof.Machine
end

