-- ==== Sys2Proof/Config.lean ====
section
/-! DEFINITION. What the spec leaves open and a step depends on. Each constant is opaque: it has no body, so no
proof can see its value. (The font table, which R234 gives a default value, is in Machine/Font.lean.) -/

namespace Sys2Proof.Config

/-- The two values of the open parameter `SHIFT_SOURCE` (spec/00_scope.md R8, D13). -/
inductive ShiftSource where
  | vx
  | vy
  deriving DecidableEq, Repr, Inhabited

/-- The register that `8XY6` and `8XYE` shift (R139, R141). Log entry 1. -/
opaque shiftSource : ShiftSource

/-- The random byte drawn by the n-th execution of `CXNN` (R37, R142): free and under no law. Log entry 2. -/
opaque randomByte : Nat → Byte

end Sys2Proof.Config
end

