-- ==== Sys2Proof/Decode.lean ====
section
/-! DEFINITION. Decoding (spec/30_encoding.md R70 to R79), the opcode map of R76, and the encoder. -/

namespace Sys2Proof

/-! ## The fields of a word (R71) -/

/-- `OP` = w[15:12]. -/
def opField (w : Word) : BitVec 4 := w.extractLsb' 12 4

/-- `X` = w[11:8], as bits. -/
def xBits (w : Word) : BitVec 4 := w.extractLsb' 8 4

/-- `Y` = w[7:4], as bits. -/
def yBits (w : Word) : BitVec 4 := w.extractLsb' 4 4

/-- `N` = w[3:0]. -/
def nField (w : Word) : BitVec 4 := w.extractLsb' 0 4

/-- `NN` = w[7:0]. -/
def nnField (w : Word) : Byte := w.extractLsb' 0 8

/-- `NNN` = w[11:0]. -/
def nnnField (w : Word) : BitVec 12 := w.extractLsb' 0 12

/-- The register that four bits name. -/
def Reg.ofBits (b : BitVec 4) : Reg := b.toFin

/-- The four bits that name a register. -/
def Reg.bits (r : Reg) : BitVec 4 := BitVec.ofFin r

/-- Register operand 1. -/
def xField (w : Word) : Reg := Reg.ofBits (xBits w)

/-- Register operand 2. -/
def yField (w : Word) : Reg := Reg.ofBits (yBits w)

/-! ## Decoding a word (R74, R75) -/

/-- Family 8: the low nibble selects (R75, R77); 8 to D and F are no instruction (R143). -/
def decodeFamily8 (w : Word) : Option Instr :=
  match nField w with
  | 0x0#4 => some (.ldReg (xField w) (yField w))
  | 0x1#4 => some (.orReg (xField w) (yField w))
  | 0x2#4 => some (.andReg (xField w) (yField w))
  | 0x3#4 => some (.xorReg (xField w) (yField w))
  | 0x4#4 => some (.addReg (xField w) (yField w))
  | 0x5#4 => some (.subReg (xField w) (yField w))
  | 0x6#4 => some (.shr (xField w) (yField w))
  | 0x7#4 => some (.subnReg (xField w) (yField w))
  | 0xE#4 => some (.shl (xField w) (yField w))
  | _ => none

/-- Family E: the low byte selects (R75). -/
def decodeFamilyE (w : Word) : Option Instr :=
  match nnField w with
  | 0x9E#8 => some (.skp (xField w))
  | 0xA1#8 => some (.sknp (xField w))
  | _ => none

/-- Family F: the low byte selects (R75). -/
def decodeFamilyF (w : Word) : Option Instr :=
  match nnField w with
  | 0x07#8 => some (.ldVxDt (xField w))
  | 0x0A#8 => some (.ldVxK (xField w))
  | 0x15#8 => some (.ldDtVx (xField w))
  | 0x18#8 => some (.ldStVx (xField w))
  | 0x1E#8 => some (.addI (xField w))
  | 0x29#8 => some (.ldF (xField w))
  | 0x33#8 => some (.ldB (xField w))
  | 0x55#8 => some (.storeRegs (xField w))
  | 0x65#8 => some (.loadRegs (xField w))
  | _ => none

/-- Decode an instruction word: by family, then by the family's sub-opcode field. `none` is the spec's `Unknown`:
every fixed digit of a pattern must match (R75, D11). -/
def decodeWord (w : Word) : Option Instr :=
  match opField w with
  | 0x0#4 => if w = 0x00E0 then some .cls else if w = 0x00EE then some .ret else none
  | 0x1#4 => some (.jp (nnnField w))
  | 0x2#4 => some (.call (nnnField w))
  | 0x3#4 => some (.seImm (xField w) (nnField w))
  | 0x4#4 => some (.sneImm (xField w) (nnField w))
  | 0x5#4 => if nField w = 0 then some (.seReg (xField w) (yField w)) else none
  | 0x6#4 => some (.ldImm (xField w) (nnField w))
  | 0x7#4 => some (.addImm (xField w) (nnField w))
  | 0x8#4 => decodeFamily8 w
  | 0x9#4 => if nField w = 0 then some (.sneReg (xField w) (yField w)) else none
  | 0xA#4 => some (.ldI (nnnField w))
  | 0xB#4 => some (.jpV0 (nnnField w))
  | 0xC#4 => some (.rnd (xField w) (nnField w))
  | 0xD#4 => some (.drw (xField w) (yField w) (nField w).toNat)
  | 0xE#4 => decodeFamilyE w
  | 0xF#4 => decodeFamilyF w
  | _ => none

/-! ## Decoding bytes (R53, R70) -/

/-- The word that two consecutive bytes make, the byte at the lower address first (R53: big-endian). -/
def wordOfBytes (hi lo : Byte) : Word := hi ++ lo

/-- The byte of a word at the lower address. -/
def hiByte (w : Word) : Byte := w.extractLsb' 8 8

/-- The byte of a word at the higher address. -/
def loByte (w : Word) : Byte := w.extractLsb' 0 8

/-- Why bytes are no instruction. -/
inductive DecodeError where
  /-- The word matches no row of R76 (R78). -/
  | unknown (w : Word)
  /-- Fewer than the two bytes of an instruction (R70). -/
  | truncated
  deriving DecidableEq, Repr

/-- Decode the instruction at the head of a list of bytes and return it with the bytes after it. -/
def decode : List Byte → Except DecodeError (Instr × List Byte)
  | hi :: lo :: rest =>
    match decodeWord (wordOfBytes hi lo) with
    | some i => .ok (i, rest)
    | none => .error (.unknown (wordOfBytes hi lo))
  | _ => .error .truncated

/-! ## The opcode map (R76) -/

/-- A row of R76: a word `w` is the instruction iff `w &&& mask = value`. -/
structure OpcodeRow where
  pattern : String
  value : Word
  mask : Word
  deriving DecidableEq, Repr

/-- The row of R76 that an instruction stands in. -/
def Instr.row : Instr → OpcodeRow
  | .cls => ⟨"00E0", 0x00E0, 0xFFFF⟩
  | .ret => ⟨"00EE", 0x00EE, 0xFFFF⟩
  | .jp _ => ⟨"1NNN", 0x1000, 0xF000⟩
  | .call _ => ⟨"2NNN", 0x2000, 0xF000⟩
  | .seImm _ _ => ⟨"3XNN", 0x3000, 0xF000⟩
  | .sneImm _ _ => ⟨"4XNN", 0x4000, 0xF000⟩
  | .seReg _ _ => ⟨"5XY0", 0x5000, 0xF00F⟩
  | .ldImm _ _ => ⟨"6XNN", 0x6000, 0xF000⟩
  | .addImm _ _ => ⟨"7XNN", 0x7000, 0xF000⟩
  | .ldReg _ _ => ⟨"8XY0", 0x8000, 0xF00F⟩
  | .orReg _ _ => ⟨"8XY1", 0x8001, 0xF00F⟩
  | .andReg _ _ => ⟨"8XY2", 0x8002, 0xF00F⟩
  | .xorReg _ _ => ⟨"8XY3", 0x8003, 0xF00F⟩
  | .addReg _ _ => ⟨"8XY4", 0x8004, 0xF00F⟩
  | .subReg _ _ => ⟨"8XY5", 0x8005, 0xF00F⟩
  | .shr _ _ => ⟨"8XY6", 0x8006, 0xF00F⟩
  | .subnReg _ _ => ⟨"8XY7", 0x8007, 0xF00F⟩
  | .shl _ _ => ⟨"8XYE", 0x800E, 0xF00F⟩
  | .sneReg _ _ => ⟨"9XY0", 0x9000, 0xF00F⟩
  | .ldI _ => ⟨"ANNN", 0xA000, 0xF000⟩
  | .jpV0 _ => ⟨"BNNN", 0xB000, 0xF000⟩
  | .rnd _ _ => ⟨"CXNN", 0xC000, 0xF000⟩
  | .drw _ _ _ => ⟨"DXYN", 0xD000, 0xF000⟩
  | .skp _ => ⟨"EX9E", 0xE09E, 0xF0FF⟩
  | .sknp _ => ⟨"EXA1", 0xE0A1, 0xF0FF⟩
  | .ldVxDt _ => ⟨"FX07", 0xF007, 0xF0FF⟩
  | .ldVxK _ => ⟨"FX0A", 0xF00A, 0xF0FF⟩
  | .ldDtVx _ => ⟨"FX15", 0xF015, 0xF0FF⟩
  | .ldStVx _ => ⟨"FX18", 0xF018, 0xF0FF⟩
  | .addI _ => ⟨"FX1E", 0xF01E, 0xF0FF⟩
  | .ldF _ => ⟨"FX29", 0xF029, 0xF0FF⟩
  | .ldB _ => ⟨"FX33", 0xF033, 0xF0FF⟩
  | .storeRegs _ => ⟨"FX55", 0xF055, 0xF0FF⟩
  | .loadRegs _ => ⟨"FX65", 0xF065, 0xF0FF⟩

/-- One instruction of each row of families 0 to 7, in the order of R76. -/
def rowSamplesLow : List Instr :=
  [.cls, .ret, .jp 0, .call 0, .seImm 0 0, .sneImm 0 0, .seReg 0 0, .ldImm 0 0, .addImm 0 0]

/-- Of families 8 to E. -/
def rowSamplesMid : List Instr :=
  [.ldReg 0 0, .orReg 0 0, .andReg 0 0, .xorReg 0 0, .addReg 0 0, .subReg 0 0, .shr 0 0, .subnReg 0 0, .shl 0 0,
    .sneReg 0 0, .ldI 0, .jpV0 0, .rnd 0 0, .drw 0 0 0, .skp 0, .sknp 0]

/-- Of family F. -/
def rowSamplesHigh : List Instr :=
  [.ldVxDt 0, .ldVxK 0, .ldDtVx 0, .ldStVx 0, .addI 0, .ldF 0, .ldB 0, .storeRegs 0, .loadRegs 0]

/-- One instruction of each row. -/
def rowSamples : List Instr := rowSamplesLow ++ rowSamplesMid ++ rowSamplesHigh

/-- The opcode map: the 34 rows of R76. -/
def opcodeMap : List OpcodeRow := rowSamples.map Instr.row

/-! ## Encoding (the six formats of R72) -/

/-- Format NNN: `OP[15:12]` `NNN[11:0]`. -/
def formatNNN (op : BitVec 4) (nnn : BitVec 12) : Word := op ++ nnn

/-- Format XNN, and format X with the sub-opcode in the place of `NN`: `OP[15:12]` `X[11:8]` `NN[7:0]`. -/
def formatXNN (op : BitVec 4) (x : Reg) (nn : Byte) : Word := op ++ x.bits ++ nn

/-- Format XYN, and format XY with the sub-opcode in the place of `N`: `OP[15:12]` `X[11:8]` `Y[7:4]` `N[3:0]`. -/
def formatXYN (op : BitVec 4) (x y : Reg) (n : BitVec 4) : Word := op ++ x.bits ++ y.bits ++ n

/-- The word of an instruction (of the low four bits of `n`, where `DXYN`'s row count is not well formed). -/
def encode : Instr → Word
  | .cls => 0x00E0
  | .ret => 0x00EE
  | .jp nnn => formatNNN 0x1 nnn
  | .call nnn => formatNNN 0x2 nnn
  | .seImm x nn => formatXNN 0x3 x nn
  | .sneImm x nn => formatXNN 0x4 x nn
  | .seReg x y => formatXYN 0x5 x y 0x0
  | .ldImm x nn => formatXNN 0x6 x nn
  | .addImm x nn => formatXNN 0x7 x nn
  | .ldReg x y => formatXYN 0x8 x y 0x0
  | .orReg x y => formatXYN 0x8 x y 0x1
  | .andReg x y => formatXYN 0x8 x y 0x2
  | .xorReg x y => formatXYN 0x8 x y 0x3
  | .addReg x y => formatXYN 0x8 x y 0x4
  | .subReg x y => formatXYN 0x8 x y 0x5
  | .shr x y => formatXYN 0x8 x y 0x6
  | .subnReg x y => formatXYN 0x8 x y 0x7
  | .shl x y => formatXYN 0x8 x y 0xE
  | .sneReg x y => formatXYN 0x9 x y 0x0
  | .ldI nnn => formatNNN 0xA nnn
  | .jpV0 nnn => formatNNN 0xB nnn
  | .rnd x nn => formatXNN 0xC x nn
  | .drw x y n => formatXYN 0xD x y (BitVec.ofNat 4 n)
  | .skp x => formatXNN 0xE x 0x9E
  | .sknp x => formatXNN 0xE x 0xA1
  | .ldVxDt x => formatXNN 0xF x 0x07
  | .ldVxK x => formatXNN 0xF x 0x0A
  | .ldDtVx x => formatXNN 0xF x 0x15
  | .ldStVx x => formatXNN 0xF x 0x18
  | .addI x => formatXNN 0xF x 0x1E
  | .ldF x => formatXNN 0xF x 0x29
  | .ldB x => formatXNN 0xF x 0x33
  | .storeRegs x => formatXNN 0xF x 0x55
  | .loadRegs x => formatXNN 0xF x 0x65

/-- The two bytes of an instruction in memory order. -/
def encodeBytes (i : Instr) : List Byte := [hiByte (encode i), loByte (encode i)]

/-! ## The host's question about the opcode table -/

/-- The word whose bits the table numbers from the least significant bit, of which `nbits` are given. -/
def tableWord (nbits w : Nat) : Word := BitVec.ofNat 16 (w % 2 ^ nbits)

/-- The instruction the decoder reads from a table word laid out in memory order. -/
def decodeTableWord (nbits w : Nat) : Option Instr :=
  match decode [hiByte (tableWord nbits w), loByte (tableWord nbits w)] with
  | .ok (i, _) => some i
  | .error _ => none

end Sys2Proof
end

