-- ==== Sys2Proof/Machine/State.lean ====
section
/-! DEFINITION. The state of the machine (spec/10_state.md R20), the conditions that end a step (spec/60_exceptions.md
R200) and the state after reset (spec/70_reset_and_hazards.md R233). -/

namespace Sys2Proof.Machine

/-- `MEM` (R50): pairs of an address and a byte, in the canonical form `Memory.wf` of Machine/Memory.lean. An address
that is not listed reads as `Memory.unlisted` says. -/
abbrev Memory := List Host.Cell

/-- `FB` (R170): 32 rows of 64 one-bit pixels. Only `Framebuffer.pixel` and `Framebuffer.flip` look inside; the order
in which the grid is kept is not architectural. -/
abbrev Framebuffer := Vector (Vector Bool 64) 32

/-- The four conditions of R200, with the `info` the spec suggests. A step that ends in one changes nothing (R98):
the state before it is the state after it, so nothing is lost where the outcome carries no state. All four are the
spec's own strict policy (R205), hence safe. -/
inductive Fault where
  /-- Raised by the fetch (`PC` above 0xFFE; info `PC`), by `DXYN`, `FX33`, `FX55` and `FX65` (info the highest address
  of the transfer), by `EX9E` and `EXA1` (info the key index), and by the host operations `load_program` (info the
  image's length) and the checked pixel read (info the coordinate). Safe. -/
  | outOfBounds (info : Nat)
  /-- Raised by `2NNN` with all 16 stack entries in use; info is `PC`. Safe. -/
  | stackOverflow (info : Word)
  /-- Raised by `00EE` with no stack entry in use; info is `PC`. Safe. -/
  | stackUnderflow (info : Word)
  /-- Raised by decode for a word that matches no row of R76; info is the word. Safe. -/
  | unknownInstruction (info : Word)
  deriving DecidableEq, Repr

/-- Why the model itself declines an instruction. No meaning of this model answers with one. -/
inductive Refusal where
  /-- An instruction with no meaning yet, by its mnemonic. Safe. -/
  | notModelled (mnemonic : String)
  deriving DecidableEq, Repr

/-- The state: the tuple of R20, the input matrix (R36), and two fields of the model's own (`tone`, `rndIndex`). -/
structure State where
  /-- `V0` to `VF` (R21). -/
  v : Vector Byte 16
  /-- `PC` (R25). -/
  pc : Word
  /-- `I`, the index register (R31). -/
  i : Word
  /-- `STACK`, 16 return addresses (R33). -/
  stack : Vector Word 16
  /-- `SP`, the number of entries in use, 0 to 16 (R33). -/
  sp : Fin 17
  /-- `DT`, the delay timer (R32). -/
  dt : Byte
  /-- `ST`, the sound timer (R32). -/
  st : Byte
  /-- `FB` (R35). -/
  fb : Framebuffer
  /-- `DRAW`, the redraw flag (R30). -/
  draw : Bool
  /-- `MEM` (R50). -/
  mem : Memory
  /-- `KEYS`, the input matrix (R36), written by the host only: the sample that the next step reads. Log entry 5. -/
  keys : Vector Bool 16
  /-- `TONE`, the output of the step that led to this state (R38). No instruction reads it. Log entry 6. -/
  tone : Bool
  /-- The model's own: how many random bytes `CXNN` has drawn (R37). Log entry 2. -/
  rndIndex : Nat
  deriving DecidableEq, Repr

/-- The reset state (R233): power-on (R231) followed by `initialize` (R232). Memory lists nothing: the font and the
zeros of reset are what unlisted addresses read as. -/
def State.reset : State where
  v := Vector.replicate 16 0x00
  pc := 0x0200
  i := 0x0000
  stack := Vector.replicate 16 0x0000
  sp := 0
  dt := 0x00
  st := 0x00
  fb := Vector.replicate 32 (Vector.replicate 64 false)
  draw := false
  mem := []
  keys := Vector.replicate 16 false
  tone := false
  rndIndex := 0

end Sys2Proof.Machine
end

