-- ==== Sys2Proof/Machine/Memory.lean ====
section
/-! DEFINITION. Reading and writing the bytes of `MEM` (spec/20_memory.md R50 to R54). An address is a natural
number, never wrapped (R52); the bounds are checked in Machine/Ops.lean before any of these is used. -/

namespace Sys2Proof.Machine

/-- What an address that is not listed reads as: the contents of `MEM` at reset (R233), the font table from 0x000 and
0x00 above it. -/
def Memory.unlisted (a : Nat) : Byte := fontTable.getD a 0x00

/-- The canonical form: addresses strictly rising and inside the 4096 bytes of R50, and no entry equal to what its
address reads as when it is not listed. -/
abbrev Memory.wf (m : Memory) : Prop :=
  m.Pairwise (fun p q => p.1 < q.1) ∧ ∀ p ∈ m, p.1 < 4096 ∧ p.2 ≠ Memory.unlisted p.1

/-- The byte at an address. -/
def Memory.read : Memory → Nat → Byte
  | [], a => Memory.unlisted a
  | (b, v) :: m, a => if a = b then v else Memory.read m a

/-- List a byte in front of entries with higher addresses, unless the address reads so unlisted. -/
def Memory.put (m : Memory) (a : Nat) (v : Byte) : Memory :=
  if v = Memory.unlisted a then m else (a, v) :: m

/-- Write the byte at an address, keeping the canonical form. -/
def Memory.write : Memory → Nat → Byte → Memory
  | [], a, v => Memory.put [] a v
  | (b, u) :: m, a, v =>
    if a < b then Memory.put ((b, u) :: m) a v
    else if a = b then Memory.put m a v
    else (b, u) :: Memory.write m a v

/-- Write bytes at ascending addresses from `a`. -/
def Memory.writeBlock : Memory → Nat → List Byte → Memory
  | m, _, [] => m
  | m, a, b :: bs => Memory.writeBlock (m.write a b) (a + 1) bs

end Sys2Proof.Machine
end

