-- ==== Sys2Proof/Machine/Ops.lean ====
section
/-! DEFINITION. The operations that the meanings share: registers, the program counter, the bound check, raising a
condition, the framebuffer, fetch and decode, and the timer tick. -/

namespace Sys2Proof.Machine

/-- What an execute phase answers. -/
abbrev Result := Host.Outcome State Fault Refusal

/-! ## Conditions (R98, R200, R204) -/

/-- Take a condition. The machine has no handler, no vector and no saved state (R204): the step ends with the
condition as its outcome, every write made before it is discarded and the state stays as it was (R98). There is no
return from a condition (R206). -/
def raise (f : Fault) : Result := .fault f

/-- The cause code of a condition (R200, D1). -/
def Fault.code : Fault → Nat
  | .outOfBounds _ => 1
  | .stackOverflow _ => 2
  | .stackUnderflow _ => 3
  | .unknownInstruction _ => 4

/-- The `info` recorded with a condition, as a number (R200). -/
def Fault.info : Fault → Nat
  | .outOfBounds n => n
  | .stackOverflow w | .stackUnderflow w | .unknownInstruction w => w.toNat

/-- The bound check of every data access (R10, R52, R57): of the `n` bytes from `base`, the highest address is checked
before the first access. No byte, no check. -/
def checkBytes (base n : Nat) (ok : Result) : Result :=
  if 0 < n ∧ 0xFFF < base + n - 1 then raise (.outOfBounds (base + n - 1)) else ok

/-! ## Registers and the program counter (R21, R94) -/

/-- Read `V[k]`. -/
def State.getV (s : State) (k : Reg) : Byte := s.v[k]

/-- Write `V[k]`. -/
def State.setV (s : State) (k : Reg) (b : Byte) : State := { s with v := s.v.set k b }

/-- Write a result to `V[x]` and then the flag to `VF` (R95): where `x` is F the flag is what stays. -/
def State.setVThenFlag (s : State) (x : Reg) (result flag : Byte) : State := (s.setV x result).setV 0xF flag

/-- Sequential: `PC <- P + 2`. -/
def State.advance (s : State) : State := { s with pc := s.pc + 2 }

/-- `PC <- P + 4` for a taken skip, else `PC <- P + 2`. -/
def State.skipIf (s : State) (taken : Bool) : State := { s with pc := s.pc + if taken then 4 else 2 }

/-- `PC <- target`. -/
def State.jump (s : State) (target : Word) : State := { s with pc := target }

/-! ## The other fields -/

/-- Write the index register. -/
def State.setI (s : State) (a : Word) : State := { s with i := a }

/-- Write the delay timer. -/
def State.setDt (s : State) (b : Byte) : State := { s with dt := b }

/-- Write the sound timer. -/
def State.setSt (s : State) (b : Byte) : State := { s with st := b }

/-- Write memory. -/
def State.setMem (s : State) (m : Memory) : State := { s with mem := m }

/-- Write the whole register file. -/
def State.setRegs (s : State) (v : Vector Byte 16) : State := { s with v := v }

/-- Write the framebuffer and mark it dirty (R30). -/
def State.setScreen (s : State) (fb : Framebuffer) : State := { s with fb := fb, draw := true }

/-- Count one draw of a random byte (log entry 2). -/
def State.countDraw (s : State) : State := { s with rndIndex := s.rndIndex + 1 }

/-! ## The framebuffer (R170) -/

/-- `FB[x][y]`. -/
def Framebuffer.pixel (fb : Framebuffer) (x : Fin 64) (y : Fin 32) : Bool := (fb[y])[x]

/-- `FB[x][y] <- FB[x][y] ^ 1`. -/
def Framebuffer.flip (fb : Framebuffer) (x : Fin 64) (y : Fin 32) : Framebuffer :=
  fb.set y ((fb[y]).set x (!(fb.pixel x y)))

/-- Every pixel unset. -/
def Framebuffer.clear : Framebuffer := Vector.replicate 32 (Vector.replicate 64 false)

/-! ## Fetch and decode (R91, R92) -/

/-- The word at `PC`, high byte first; out of bounds unless both bytes are in memory. No alignment is asked (R55). -/
def fetchWord (s : State) : Except Fault Word :=
  if 0xFFE < s.pc.toNat then .error (.outOfBounds s.pc.toNat)
  else .ok (wordOfBytes (s.mem.read s.pc.toNat) (s.mem.read (s.pc.toNat + 1)))

/-- The instruction at `PC`, or the condition that fetch or decode raises, fetch first (R99). -/
def fetchDecode (s : State) : Except Fault Instr :=
  match fetchWord s with
  | .error f => .error f
  | .ok w =>
    match decodeWord w with
    | some i => .ok i
    | none => .error (.unknownInstruction w)

/-! ## The tick (R96) -/

/-- A timer one step later: one less while it is not 0. -/
def countDown (t : Byte) : Byte := if t = 0 then 0 else t - 1

/-- The timer tick. `TONE` is taken from the sound timer before it is decremented. -/
def tick (s : State) : State := { s with dt := countDown s.dt, st := countDown s.st, tone := s.st == 1 }

/-- The end of a step: the tick, unless a condition was raised (R96, R98). -/
def endStep : Result → Result
  | .next s => .next (tick s)
  | .fault f => .fault f
  | .refused r => .refused r

end Sys2Proof.Machine
end

