-- ==== Sys2Proof/Machine/Operands.lean ====
section
/-! DEFINITION. The operands that take more than a field of the word to find. -/

namespace Sys2Proof.Machine

/-- The shifted operand of `8XY6` and `8XYE` under each value of `SHIFT_SOURCE` (R139, R141). -/
def shiftOperandOf (source : Config.ShiftSource) (x y : Reg) (s : State) : Byte :=
  match source with
  | .vx => s.getV x
  | .vy => s.getV y

/-- The shifted operand under this machine's `SHIFT_SOURCE`. -/
def shiftOperand (x y : Reg) (s : State) : Byte := shiftOperandOf Config.shiftSource x y s

/-- The three decimal digits of a byte: hundreds, tens, ones (R154). -/
def decimalDigits (a : Byte) : List Byte :=
  [BitVec.ofNat 8 (a.toNat / 100), BitVec.ofNat 8 (a.toNat / 10 % 10), BitVec.ofNat 8 (a.toNat % 10)]

/-- The registers `V0` to `VX` in ascending order (R155). -/
def registerBlock (x : Reg) (s : State) : List Byte := s.v.toList.take (x.val + 1)

/-- The register file after `V0` to `VX` are loaded from ascending addresses (R156). -/
def loadedRegisters (x : Reg) (s : State) : Vector Byte 16 :=
  Vector.ofFn fun k => if k ≤ x then s.mem.read (s.i.toNat + k.val) else s.getV k

/-- `I + X + 1`, the index past a transferred block (R155, R156). -/
def indexPast (x : Reg) (s : State) : Word := s.i + BitVec.ofNat 16 (x.val + 1)

/-- The key whose index a register holds; an index above 15 is out of bounds (R181, R182). -/
def keyOf (x : Reg) (s : State) : Except Fault Bool :=
  if h : (s.getV x).toNat < 16 then .ok s.keys[(s.getV x).toNat] else .error (.outOfBounds (s.getV x).toNat)

/-- The least key that is pressed, if any is (R183). -/
def lowestPressed (s : State) : Option (Fin 16) := (List.finRange 16).find? fun k => s.keys[k]

/-- The pixels that a sprite's 1 bits fall on, in the order of R172's loops: row by row from `base`, bit 7 of a byte
leftmost, the column modulo 64 and the row modulo 32. -/
def spritePixels (m : Memory) (base x0 y0 n : Nat) : List (Fin 64 × Fin 32) :=
  (List.range n).flatMap fun r =>
    ((List.range 8).filter fun c => (m.read (base + r)).getLsbD (7 - c)).map fun c =>
      (Fin.ofNat 64 (x0 + c), Fin.ofNat 32 (y0 + r))

/-- XOR one sprite pixel onto the framebuffer, remembering whether any pixel went from set to unset (R172). -/
def drawPixel (d : Framebuffer × Bool) (p : Fin 64 × Fin 32) : Framebuffer × Bool :=
  (d.1.flip p.1 p.2, d.2 || d.1.pixel p.1 p.2)

/-- XOR sprite pixels onto the framebuffer one after another; the Bool is the collision. -/
def drawPixels (fb : Framebuffer) (ps : List (Fin 64 × Fin 32)) : Framebuffer × Bool := ps.foldl drawPixel (fb, false)

end Sys2Proof.Machine
end

