-- ==== Sys2Proof/Machine/Alu.lean ====
section
/-! DEFINITION. Register load and ALU (spec/42_load_and_alu.md). Sources are read before anything is written, and the
flag is written last (R95). -/

namespace Sys2Proof.Machine

/-- `6XNN` (R131). -/
def execLdImm (x : Reg) (nn : Byte) (s : State) : Result := .next (s.setV x nn).advance

/-- `7XNN` (R132): wraps, no flag. -/
def execAddImm (x : Reg) (nn : Byte) (s : State) : Result := .next (s.setV x (s.getV x + nn)).advance

/-- `8XY0` (R133). -/
def execLdReg (x y : Reg) (s : State) : Result := .next (s.setV x (s.getV y)).advance

/-- `8XY1` (R134). -/
def execOrReg (x y : Reg) (s : State) : Result := .next (s.setV x (s.getV x ||| s.getV y)).advance

/-- `8XY2` (R135). -/
def execAndReg (x y : Reg) (s : State) : Result := .next (s.setV x (s.getV x &&& s.getV y)).advance

/-- `8XY3` (R136). -/
def execXorReg (x y : Reg) (s : State) : Result := .next (s.setV x (s.getV x ^^^ s.getV y)).advance

/-- `8XY4` (R137). -/
def execAddReg (x y : Reg) (s : State) : Result :=
  .next (s.setVThenFlag x (s.getV x + s.getV y) (carryFlag (s.getV x) (s.getV y))).advance

/-- `8XY5` (R138). -/
def execSubReg (x y : Reg) (s : State) : Result :=
  .next (s.setVThenFlag x (s.getV x - s.getV y) (noBorrowFlag (s.getV x) (s.getV y))).advance

/-- `8XY6` (R139). -/
def execShr (x y : Reg) (s : State) : Result :=
  .next (s.setVThenFlag x (shiftOperand x y s >>> 1) (lowBitFlag (shiftOperand x y s))).advance

/-- `8XY7` (R140). -/
def execSubnReg (x y : Reg) (s : State) : Result :=
  .next (s.setVThenFlag x (s.getV y - s.getV x) (noBorrowFlag (s.getV y) (s.getV x))).advance

/-- `8XYE` (R141). -/
def execShl (x y : Reg) (s : State) : Result :=
  .next (s.setVThenFlag x (shiftOperand x y s <<< 1) (highBitFlag (shiftOperand x y s))).advance

/-- `CXNN` (R142): a fresh random byte, masked. Log entry 2. -/
def execRnd (x : Reg) (nn : Byte) (s : State) : Result :=
  .next (s.setV x (Config.randomByte s.rndIndex &&& nn)).countDraw.advance

end Sys2Proof.Machine
end

