-- ==== Sys2Proof/Machine/Control.lean ====
section
/-! DEFINITION. Control transfer (spec/41_control_transfer.md). A target is not checked when `PC` is written (R110):
the next fetch checks it. -/

namespace Sys2Proof.Machine

/-- `00EE` (R111). -/
def execRet (s : State) : Result :=
  if h : s.sp.val = 0 then raise (.stackUnderflow s.pc)
  else .next { s with sp := ⟨s.sp.val - 1, by omega⟩, pc := s.stack[s.sp.val - 1] }

/-- `1NNN` (R112). -/
def execJp (nnn : BitVec 12) (s : State) : Result := .next (s.jump (nnn.zeroExtend 16))

/-- `2NNN` (R113): the entry pushed is the return address, P + 2 (R34, D6). -/
def execCall (nnn : BitVec 12) (s : State) : Result :=
  if h : s.sp.val = 16 then raise (.stackOverflow s.pc)
  else .next { s with
    stack := s.stack.set s.sp.val (s.pc + 2), sp := ⟨s.sp.val + 1, by omega⟩, pc := nnn.zeroExtend 16 }

/-- `3XNN` (R114). -/
def execSeImm (x : Reg) (nn : Byte) (s : State) : Result := .next (s.skipIf (s.getV x == nn))

/-- `4XNN` (R115). -/
def execSneImm (x : Reg) (nn : Byte) (s : State) : Result := .next (s.skipIf (s.getV x != nn))

/-- `5XY0` (R116). -/
def execSeReg (x y : Reg) (s : State) : Result := .next (s.skipIf (s.getV x == s.getV y))

/-- `9XY0` (R117). -/
def execSneReg (x y : Reg) (s : State) : Result := .next (s.skipIf (s.getV x != s.getV y))

/-- `BNNN` (R118): the sum is not masked to 12 bits. -/
def execJpV0 (nnn : BitVec 12) (s : State) : Result :=
  .next (s.jump (nnn.zeroExtend 16 + (s.getV 0).zeroExtend 16))

end Sys2Proof.Machine
end

