-- ==== Sys2Proof/Machine/Display.lean ====
section
/-! DEFINITION. Display (spec/44_display.md). -/

namespace Sys2Proof.Machine

/-- `00E0` (R171): the redraw flag is set even where nothing changed (D34). -/
def execCls (s : State) : Result := .next (s.setScreen Framebuffer.clear).advance

/-- What `DXYN` draws: the framebuffer and the collision. -/
def drawnSprite (x y : Reg) (n : Nat) (s : State) : Framebuffer × Bool :=
  drawPixels s.fb (spritePixels s.mem s.i.toNat (s.getV x).toNat (s.getV y).toNat n)

/-- `DXYN` (R172). -/
def execDrw (x y : Reg) (n : Nat) (s : State) : Result :=
  checkBytes s.i.toNat n
    (.next ((s.setScreen (drawnSprite x y n s).1).setV 0xF (flagByte (drawnSprite x y n s).2)).advance)

end Sys2Proof.Machine
end

