-- ==== Sys2Proof/Machine/IndexMemory.lean ====
section
/-! DEFINITION. Index register and memory (spec/43_index_and_memory.md). -/

namespace Sys2Proof.Machine

/-- `ANNN` (R151). -/
def execLdI (nnn : BitVec 12) (s : State) : Result := .next (s.setI (nnn.zeroExtend 16)).advance

/-- `FX1E` (R152): the sum modulo 65536; the flag is of the unreduced sum (D16). -/
def execAddI (x : Reg) (s : State) : Result :=
  .next ((s.setI (s.i + (s.getV x).zeroExtend 16)).setV 0xF (indexOverflowFlag s.i (s.getV x))).advance

/-- `FX29` (R153): no masking of VX (D22). -/
def execLdF (x : Reg) (s : State) : Result := .next (s.setI ((s.getV x).zeroExtend 16 * 5)).advance

/-- `FX33` (R154). -/
def execLdB (x : Reg) (s : State) : Result :=
  checkBytes s.i.toNat 3 (.next (s.setMem (s.mem.writeBlock s.i.toNat (decimalDigits (s.getV x)))).advance)

/-- `FX55` (R155): `I` moves past the stored block (D19). -/
def execStoreRegs (x : Reg) (s : State) : Result :=
  checkBytes s.i.toNat (x.val + 1)
    (.next ((s.setMem (s.mem.writeBlock s.i.toNat (registerBlock x s))).setI (indexPast x s)).advance)

/-- `FX65` (R156): `I` moves past the loaded block (D19). -/
def execLoadRegs (x : Reg) (s : State) : Result :=
  checkBytes s.i.toNat (x.val + 1) (.next ((s.setRegs (loadedRegisters x s)).setI (indexPast x s)).advance)

end Sys2Proof.Machine
end

