-- ==== Sys2Proof/Machine/KeysTimers.lean ====
section
/-! DEFINITION. Keys and timers (spec/45_keys_and_timers.md). -/

namespace Sys2Proof.Machine

/-- `EX9E` (R181). -/
def execSkp (x : Reg) (s : State) : Result :=
  match keyOf x s with
  | .ok pressed => .next (s.skipIf pressed)
  | .error f => raise f

/-- `EXA1` (R182). -/
def execSknp (x : Reg) (s : State) : Result :=
  match keyOf x s with
  | .ok pressed => .next (s.skipIf (!pressed))
  | .error f => raise f

/-- `FX0A` (R183): with no key pressed nothing is written and `PC` stays, which is the wait (D20). -/
def execLdVxK (x : Reg) (s : State) : Result :=
  match lowestPressed s with
  | none => .next s
  | some k => .next (s.setV x (BitVec.ofNat 8 k.val)).advance

/-- `FX07` (R184). -/
def execLdVxDt (x : Reg) (s : State) : Result := .next (s.setV x s.dt).advance

/-- `FX15` (R185). -/
def execLdDtVx (x : Reg) (s : State) : Result := .next (s.setDt (s.getV x)).advance

/-- `FX18` (R186). -/
def execLdStVx (x : Reg) (s : State) : Result := .next (s.setSt (s.getV x)).advance

end Sys2Proof.Machine
end

