-- ==== Sys2Proof/Machine/Step.lean ====
section
/-! DEFINITION. One step: fetch, decode, execute, tick (spec/40_instruction_cycle.md R90). -/

namespace Sys2Proof.Machine

/-- One invocation of `step()`. -/
def step (s : State) : Host.Outcome State Fault Refusal :=
  match fetchDecode s with
  | .error f => raise f
  | .ok i => endStep (exec i s)

/-- `s` with a table word where the next fetch reads it: the two bytes at `PC` and `PC` + 1 (R53). Where `PC` is past the
last fetchable address, 0xFFE, nothing could be fetched, and `PC` becomes the entry address. Log entry 7. -/
def State.withFetchWord (s : State) (nbits w : Nat) : State :=
  let p : Word := if 0xFFE < s.pc.toNat then 0x0200 else s.pc
  { s with pc := p, mem := s.mem.writeBlock p.toNat [hiByte (tableWord nbits w), loByte (tableWord nbits w)] }

end Sys2Proof.Machine
end

