-- ==== Sys2Proof/Machine/HostOps.lean ====
section
/-! DEFINITION. Power-on and the operations of the host (spec/00_scope.md R4, spec/60_exceptions.md R214 to R219,
spec/70_reset_and_hazards.md R230 to R237). Each is atomic and falls between two steps (spec/20_memory.md R60). -/

namespace Sys2Proof.Machine

/-- Power-on (R231): everything zero, the font not yet copied in. -/
def State.powerOn : State :=
  { State.reset with pc := 0x0000, mem := Memory.writeBlock [] 0 (List.replicate 80 0x00) }

/-- `initialize()` with a given font table (R232, R8): `PC` to 0x200, the font into low memory, the framebuffer and the
redraw flag cleared; nothing else. -/
def hostInitializeWith (font : List Byte) (s : State) : State :=
  { s with pc := 0x0200, mem := s.mem.writeBlock 0 font, fb := Framebuffer.clear, draw := false }

/-- `initialize()` with this machine's font table. -/
def hostInitialize (s : State) : State := hostInitializeWith fontTable s

/-- `load_program(bytes)` (R235): all of the image from 0x200, or nothing. -/
def hostLoadProgram (bytes : List Byte) (s : State) : Result :=
  if 4096 < 0x200 + bytes.length then raise (.outOfBounds bytes.length)
  else .next { s with mem := s.mem.writeBlock 0x200 bytes }

/-- `framebuffer_pixel(x, y)`, a port of 6 and 5 bits (R215). -/
def framebufferPixel (s : State) (x : BitVec 6) (y : BitVec 5) : Bool := s.fb.pixel x.toFin y.toFin

/-- The wrapper that takes wider numbers and rejects those outside the screen (R215, D26). Log entry 8. -/
def framebufferPixelChecked (s : State) (x y : Nat) : Except Fault Bool :=
  if 63 < x then .error (.outOfBounds x)
  else if 31 < y then .error (.outOfBounds y)
  else .ok (framebufferPixel s (BitVec.ofNat 6 x) (BitVec.ofNat 5 y))

/-- `needs_redraw()` (R216). -/
def needsRedraw (s : State) : Bool := s.draw

/-- `clear_redraw_flag()` (R216). -/
def clearRedrawFlag (s : State) : State := { s with draw := false }

/-- The host's write of the input matrix (R217): any of the 65536 combinations. -/
def writeKeys (keys : Vector Bool 16) (s : State) : State := { s with keys := keys }

/-- What the host can do to the machine between two steps. -/
inductive HostMove where
  | initializeFont (font : Vector Byte 80)
  | loadProgram (bytes : List Byte)
  | clearRedraw
  | keys (k : Vector Bool 16)
  deriving DecidableEq, Repr

/-- The effect of a move. -/
def hostMove : HostMove → State → Result
  | .initializeFont font, s => .next (hostInitializeWith font.toList s)
  | .loadProgram bytes, s => hostLoadProgram bytes s
  | .clearRedraw, s => .next (clearRedrawFlag s)
  | .keys k, s => .next (writeKeys k s)

end Sys2Proof.Machine
end

