-- ==== Sys2Proof/Safety.lean ====
section
/-! DEFINITION. The terms in which claims about runs are made: which condition ends a step (spec/60_exceptions.md
R200, spec/40_instruction_cycle.md R99), which parts of the state an execute phase may write (spec/10_state.md R20,
R22), the invariant (R41, R26, R34), and the reachable states. -/

namespace Sys2Proof.Machine

/-! ## Words for the claims -/

/-- A row of R76 and the operands it reads: a word is in the row exactly where it decodes to the instruction that `f`
makes of its fields. -/
def EncodedAs (value mask : Word) (f : Word → Instr) : Prop := ∀ w : Word, w &&& mask = value ↔ decodeWord w = some (f w)

/-- A sprite of `n` rows at (VX, VY) has a 1 bit on the pixel (R172): bit 7 of a byte is its leftmost column, columns
are taken modulo 64 and rows modulo 32. -/
def SpriteCovers (s : State) (x y : Reg) (n : Nat) (px : Fin 64) (py : Fin 32) : Prop :=
  ∃ r < n, ∃ c < 8, (s.mem.read (s.i.toNat + r)).getLsbD (7 - c) = true ∧
    px.val = ((s.getV x).toNat + c) % 64 ∧ py.val = ((s.getV y).toNat + r) % 32

/-- The seven instructions that write VF as a side effect (R22). -/
def writesFlag : Instr → Bool
  | .addReg _ _ | .subReg _ _ | .shr _ _ | .subnReg _ _ | .shl _ _ | .addI _ | .drw _ _ _ => true
  | .cls | .ret | .jp _ | .call _ | .seImm _ _ | .sneImm _ _ | .seReg _ _ | .ldImm _ _ | .addImm _ _ | .ldReg _ _
  | .orReg _ _ | .andReg _ _ | .xorReg _ _ | .sneReg _ _ | .ldI _ | .jpV0 _ | .rnd _ _ | .skp _ | .sknp _ | .ldVxDt _
  | .ldVxK _ | .ldDtVx _ | .ldStVx _ | .ldF _ | .ldB _ | .storeRegs _ | .loadRegs _ => false

/-- The X field of an instruction that has one (R72). -/
def operandX : Instr → Option Reg
  | .cls | .ret | .jp _ | .call _ | .ldI _ | .jpV0 _ => none
  | .seImm x _ | .sneImm x _ | .seReg x _ | .ldImm x _ | .addImm x _ | .ldReg x _ | .orReg x _ | .andReg x _
  | .xorReg x _ | .addReg x _ | .subReg x _ | .shr x _ | .subnReg x _ | .shl x _ | .sneReg x _ | .rnd x _ | .drw x _ _
  | .skp x | .sknp x | .ldVxDt x | .ldVxK x | .ldDtVx x | .ldStVx x | .addI x | .ldF x | .ldB x | .storeRegs x
  | .loadRegs x => some x

/-- The three instructions that read the input matrix (R36). -/
def readsKeys : Instr → Bool
  | .skp _ | .sknp _ | .ldVxK _ => true
  | .cls | .ret | .jp _ | .call _ | .seImm _ _ | .sneImm _ _ | .seReg _ _ | .ldImm _ _ | .addImm _ _ | .ldReg _ _
  | .orReg _ _ | .andReg _ _ | .xorReg _ _ | .addReg _ _ | .subReg _ _ | .shr _ _ | .subnReg _ _ | .shl _ _
  | .sneReg _ _ | .ldI _ | .jpV0 _ | .rnd _ _ | .drw _ _ _ | .ldVxDt _ | .ldDtVx _ | .ldStVx _ | .addI _ | .ldF _
  | .ldB _ | .storeRegs _ | .loadRegs _ => false

/-- The same outcome with its next state changed. -/
def mapNext (f : State → State) : Result → Result
  | .next s => .next (f s)
  | .fault e => .fault e
  | .refused r => .refused r

/-- The word at `PC`, where both of its bytes are in memory. -/
def wordAtPc (s : State) : Word := wordOfBytes (s.mem.read s.pc.toNat) (s.mem.read (s.pc.toNat + 1))

/-! ## Conditions -/

/-- The condition that the execute phase of an instruction raises, by the table of R200. -/
def executeFault : Instr → State → Option Fault
  | .ret, s => if s.sp.val = 0 then some (.stackUnderflow s.pc) else none
  | .call _, s => if s.sp.val = 16 then some (.stackOverflow s.pc) else none
  | .drw _ _ n, s =>
    if 0 < n ∧ 0xFFF < s.i.toNat + n - 1 then some (.outOfBounds (s.i.toNat + n - 1)) else none
  | .ldB _, s => if 0xFFF < s.i.toNat + 2 then some (.outOfBounds (s.i.toNat + 2)) else none
  | .storeRegs x, s | .loadRegs x, s =>
    if 0xFFF < s.i.toNat + x.val then some (.outOfBounds (s.i.toNat + x.val)) else none
  | .skp x, s | .sknp x, s =>
    if 15 < (s.getV x).toNat then some (.outOfBounds (s.getV x).toNat) else none
  | .cls, _ | .jp _, _ | .seImm _ _, _ | .sneImm _ _, _ | .seReg _ _, _ | .ldImm _ _, _ | .addImm _ _, _
  | .ldReg _ _, _ | .orReg _ _, _ | .andReg _ _, _ | .xorReg _ _, _ | .addReg _ _, _ | .subReg _ _, _ | .shr _ _, _
  | .subnReg _ _, _ | .shl _ _, _ | .sneReg _ _, _ | .ldI _, _ | .jpV0 _, _ | .rnd _ _, _ | .ldVxDt _, _
  | .ldVxK _, _ | .ldDtVx _, _ | .ldStVx _, _ | .addI _, _ | .ldF _, _ => none

/-- The condition that ends the next step, in the order of R99: the fetch bound, then decode, then the instruction's
own. -/
def tabulatedFault (s : State) : Option Fault :=
  if 0xFFE < s.pc.toNat then some (.outOfBounds s.pc.toNat)
  else
    match decodeWord (wordAtPc s) with
    | none => some (.unknownInstruction (wordAtPc s))
    | some i => executeFault i s

/-! ## What an execute phase may write -/

/-- The smallest parts of the state: a register, a stack entry, a pixel, a byte of memory, or a single field. -/
inductive Part where
  | v (k : Reg)
  | pc
  | i
  | stack (k : Fin 16)
  | sp
  | dt
  | st
  | pixel (x : Fin 64) (y : Fin 32)
  | draw
  | byte (a : Nat)
  | keys
  | tone
  | rndIndex
  deriving DecidableEq, Repr

/-- The part holds in `t` what it holds in `s`. -/
def Part.same (s t : State) : Part → Prop
  | .v k => t.getV k = s.getV k
  | .pc => t.pc = s.pc
  | .i => t.i = s.i
  | .stack k => t.stack[k] = s.stack[k]
  | .sp => t.sp = s.sp
  | .dt => t.dt = s.dt
  | .st => t.st = s.st
  | .pixel x y => t.fb.pixel x y = s.fb.pixel x y
  | .draw => t.draw = s.draw
  | .byte a => t.mem.read a = s.mem.read a
  | .keys => t.keys = s.keys
  | .tone => t.tone = s.tone
  | .rndIndex => t.rndIndex = s.rndIndex

/-- A pixel. -/
def Part.isPixel : Part → Bool
  | .pixel _ _ => true
  | _ => false

/-- One of the `n` bytes from `base`. -/
def Part.isByteIn (base n : Nat) : Part → Bool
  | .byte a => base ≤ a && a < base + n
  | _ => false

/-- One of the registers `V0` to `VX`. -/
def Part.isRegUpTo (x : Reg) : Part → Bool
  | .v k => k ≤ x
  | _ => false

/-- The stack entry with number `n`. -/
def Part.isStackEntry (n : Nat) : Part → Bool
  | .stack k => k.val == n
  | _ => false

/-- Whether the execute phase of an instruction may write a part: the destination, VF where the instruction writes it
as a flag (R22), and what the "written by" column of R20 adds. `PC` may change in every instruction. -/
def mayWrite (i : Instr) (s : State) (p : Part) : Bool :=
  p == .pc ||
  match i with
  | .jp _ | .jpV0 _ | .seImm _ _ | .sneImm _ _ | .seReg _ _ | .sneReg _ _ | .skp _ | .sknp _ => false
  | .ret => p == .sp
  | .call _ => p == .sp || p.isStackEntry s.sp.val
  | .ldImm x _ | .addImm x _ | .ldReg x _ | .orReg x _ | .andReg x _ | .xorReg x _ | .ldVxDt x | .ldVxK x => p == .v x
  | .addReg x _ | .subReg x _ | .shr x _ | .subnReg x _ | .shl x _ => p == .v x || p == .v 0xF
  | .rnd x _ => p == .v x || p == .rndIndex
  | .ldI _ | .ldF _ => p == .i
  | .addI _ => p == .i || p == .v 0xF
  | .ldB _ => p.isByteIn s.i.toNat 3
  | .storeRegs x => p == .i || p.isByteIn s.i.toNat (x.val + 1)
  | .loadRegs x => p == .i || p.isRegUpTo x
  | .cls => p == .draw || p.isPixel
  | .drw _ _ _ => p == .v 0xF || p == .draw || p.isPixel
  | .ldDtVx _ => p == .dt
  | .ldStVx _ => p == .st

/-- The frame of an execute phase: every part the instruction may not write is as before. -/
def Keeps (i : Instr) (s t : State) : Prop := ∀ p : Part, mayWrite i s p = false → p.same s t

/-! ## The invariant and the reachable states -/

/-- What every step and every host move keeps: memory in canonical form, all of it inside the 4096 bytes (R41); `PC` at
most 0x10FE, so that it never wraps (R26); every live stack entry two past an address that was fetched (R34). -/
def Inv (s : State) : Prop :=
  s.mem.wf ∧ s.pc.toNat ≤ 0x10FE ∧
  ∀ k : Fin 16, k.val < s.sp.val → 2 ≤ (s.stack[k]).toNat ∧ (s.stack[k]).toNat ≤ 0x1000

/-- The states reached from power-on by steps and host moves (R41). -/
inductive Reachable : State → Prop where
  | powerOn : Reachable State.powerOn
  | step {s t : State} : Reachable s → step s = .next t → Reachable t
  | host {s t : State} (m : HostMove) : Reachable s → hostMove m s = .next t → Reachable t

/-- The next step completes: `s` is not a state in which the machine is stuck at a condition (R40, R206). -/
def CanStep (s : State) : Prop := ∃ t, step s = .next t

end Sys2Proof.Machine
end

