-- ==== Sys2Proof/Certificates/Slice0/Obligations.lean ====
section
/-! DEFINITION. The statements for the provers. A docstring names the rule of spec/ that a statement formalises and,
where it rests on a choice that the spec marks as its own (D1 to D36, general knowledge) or on the model's, that choice.
`Keeps i s t` (Safety.lean) is the frame of an instruction: every register, stack entry, pixel, byte of memory and field
that the instruction may not write is as before. -/

open Sys2Proof Sys2Proof.Machine

/-! ## Encoding -/

/-- One word of each family, written out from the encodings of R71, R72 and R76. -/
def Obligations.WordsDecodeAsTheEncodingsSay : Prop :=
  decodeWord 0b0000000011100000 = some .cls ∧
  decodeWord 0b0001101010111100 = some (.jp 0xABC) ∧
  decodeWord 0b0101000100100000 = some (.seReg 1 2) ∧
  decodeWord 0b0110000100101010 = some (.ldImm 1 0x2A) ∧
  decodeWord 0b1000000100101110 = some (.shl 1 2) ∧
  decodeWord 0b1010000100100011 = some (.ldI 0x123) ∧
  decodeWord 0b1101000100100101 = some (.drw 1 2 5) ∧
  decodeWord 0b1110010010011110 = some (.skp 4) ∧
  decodeWord 0b1111001001010101 = some (.storeRegs 2) ∧
  decodeWord 0b0000000000000000 = none

/-- R71, R72, R76: decoding the two bytes of a well-formed instruction gives it back, with the bytes after it. -/
def Obligations.DecodeOfEncodeIsTheInstruction : Prop :=
  ∀ (i : Instr) (rest : List Byte), i.wellFormed = true → decode (encodeBytes i ++ rest) = .ok (i, rest)

/-- R74: a word that decodes has one meaning, and the instruction's encoding is that word again: no bit is dropped. -/
def Obligations.EncodeOfDecodeIsTheWord : Prop :=
  ∀ (w : Word) (i : Instr), decodeWord w = some i → encode i = w ∧ i.wellFormed = true

/-- R74 to R76: a word decodes to an instruction of a row exactly where the row's mask and match accept it. The numbers
1 to 7 of family 8 are from general knowledge (R77, D12; log entry 4) and the strictness is D11. -/
def Obligations.DecodeFollowsTheOpcodeMap : Prop :=
  (∀ (w : Word) (i : Instr), decodeWord w = some i → i.row ∈ opcodeMap ∧ w &&& i.row.mask = i.row.value) ∧
  (∀ row ∈ opcodeMap, ∀ w : Word, w &&& row.mask = row.value → ∃ i, decodeWord w = some i ∧ i.row = row)

/-! ## The step -/

/-- R78, R203: a word that matches no row ends the step with `UnknownInstruction`; the outcome carries no state, which is
that nothing changes (D2). The strictness of decode is D11. -/
def Obligations.UnmatchedWordRaisesUnknownInstruction : Prop :=
  ∀ s : State, s.pc.toNat ≤ 0xFFE → (∀ row ∈ opcodeMap, wordAtPc s &&& row.mask ≠ row.value) →
    step s = .fault (.unknownInstruction (wordAtPc s))

/-- R90 to R93: where the two bytes at `PC` decode to an instruction, the step is its execute phase followed by the tick,
and a condition of the execute phase ends the step without one. -/
def Obligations.StepRunsTheDecodedInstruction : Prop :=
  ∀ (s : State) (i : Instr), s.pc.toNat ≤ 0xFFE →
    decode [s.mem.read s.pc.toNat, s.mem.read (s.pc.toNat + 1)] = .ok (i, []) →
    (∀ u, exec i s = .next u → step s = .next (tick u)) ∧ (∀ f, exec i s = .fault f → step s = .fault f)

/-- R53: the word fetched is the byte at `PC` times 256 plus the byte at `PC` + 1; the lower byte address holds the family
nibble and X, the higher one Y and N. That this is so for an odd `PC` too is R55, the spec's decision D9, and that it is so
for every `PC` up to 0xFFE is R91, the spec's decision D8 (log entry 12). -/
def Obligations.FetchIsBigEndian : Prop :=
  ∀ s : State, s.pc.toNat ≤ 0xFFE → ∃ w, fetchWord s = .ok w ∧
    w.toNat = (s.mem.read s.pc.toNat).toNat * 256 + (s.mem.read (s.pc.toNat + 1)).toNat ∧
    (opField w).toNat = (s.mem.read s.pc.toNat).toNat / 16 ∧ (xField w).val = (s.mem.read s.pc.toNat).toNat % 16 ∧
    (yField w).val = (s.mem.read (s.pc.toNat + 1)).toNat / 16 ∧
    (nField w).toNat = (s.mem.read (s.pc.toNat + 1)).toNat % 16 ∧ nnField w = s.mem.read (s.pc.toNat + 1)

/-- R91, R27: a step whose `PC` is above 0xFFE ends with `OutOfBounds(PC)`. That the range is checked at fetch and only
there is the spec's decision D8. -/
def Obligations.FetchPastMemoryIsOutOfBounds : Prop :=
  ∀ s : State, 0xFFE < s.pc.toNat → step s = .fault (.outOfBounds s.pc.toNat)

/-- R96: every step that completes ends with the tick of both timers, which sees what the execute phase wrote: each
timer one less and never below zero, `TONE` exactly when the sound timer was 1, and nothing else changed. -/
def Obligations.EveryCompletedStepTicks : Prop :=
  ∀ (s u : State) (i : Instr), fetchDecode s = .ok i → exec i s = .next u →
    ∃ t, step s = .next t ∧ t.dt.toNat = u.dt.toNat - 1 ∧ t.st.toNat = u.st.toNat - 1 ∧
      (t.tone = true ↔ u.st.toNat = 1) ∧ t = { u with dt := t.dt, st := t.st, tone := t.tone }

/-- R200, R99: a step ends with a condition exactly where the table of R200 says so, with that condition, fetch before
decode before execute; every other step completes, and none is refused. The codes and `info` are D1, the order is D31,
a key index above 15 is D21. -/
def Obligations.StepFaultsExactlyAsTabulated : Prop :=
  ∀ s : State, (∀ f, tabulatedFault s = some f → step s = .fault f) ∧ (tabulatedFault s = none → CanStep s)

/-- R20 (the column "written by"), R22, R56: an execute phase writes nothing but what the instruction may write. Stored
bytes are those from `I`: three in `FX33`, X + 1 in `FX55`; every other byte of memory reads as before. -/
def Obligations.ExecuteWritesOnlyItsOwnParts : Prop :=
  ∀ (i : Instr) (s t : State), exec i s = .next t → Keeps i s t

/-- R20, R96: a whole step writes nothing but what its instruction may write, the two timers and `TONE`. -/
def Obligations.StepWritesOnlyItsOwnPartsAndTimers : Prop :=
  ∀ (i : Instr) (s t : State), fetchDecode s = .ok i → step s = .next t →
    ∀ p : Part, p ≠ .dt → p ≠ .st → p ≠ .tone → mayWrite i s p = false → p.same s t

/-- R22: the seven flag instructions leave 0 or 1 in VF on every execution, and no other instruction writes VF unless
its X field is F. That the flag is what stays where X is F is the spec's decision D14. -/
def Obligations.FlagRegisterIsWrittenByFlagInstructions : Prop :=
  ∀ (i : Instr) (s t : State), exec i s = .next t →
    (writesFlag i = true → t.getV 0xF = 0 ∨ t.getV 0xF = 1) ∧
    (writesFlag i = false → operandX i ≠ some 0xF → t.getV 0xF = s.getV 0xF)

/-! ## Control transfer -/

/-- R111. -/
def Obligations.ReturnPopsTheStack : Prop :=
  EncodedAs 0x00EE 0xFFFF (fun _ => .ret) ∧
  (∀ s : State, s.sp.val = 0 → exec .ret s = .fault (.stackUnderflow s.pc)) ∧
  (∀ (s : State) (k : Fin 16), s.sp.val = k.val + 1 →
    ∃ t, exec .ret s = .next t ∧ t.sp.val = k.val ∧ t.pc = s.stack[k] ∧ Keeps .ret s t)

/-- R112. -/
def Obligations.JumpGoesToTheLiteral : Prop :=
  EncodedAs 0x1000 0xF000 (fun w => .jp (nnnField w)) ∧
  ∀ (nnn : BitVec 12) (s : State), ∃ t, exec (.jp nnn) s = .next t ∧ t.pc.toNat = nnn.toNat ∧ Keeps (.jp nnn) s t

/-- R113. That the entry pushed is P + 2 is the spec's decision D6. -/
def Obligations.CallPushesTheReturnAddress : Prop :=
  EncodedAs 0x2000 0xF000 (fun w => .call (nnnField w)) ∧
  (∀ (nnn : BitVec 12) (s : State), s.sp.val = 16 → exec (.call nnn) s = .fault (.stackOverflow s.pc)) ∧
  (∀ (nnn : BitVec 12) (s : State) (k : Fin 16), s.sp.val = k.val →
    ∃ t, exec (.call nnn) s = .next t ∧ t.stack[k] = s.pc + 2 ∧ t.sp.val = k.val + 1 ∧ t.pc.toNat = nnn.toNat ∧
      Keeps (.call nnn) s t)

/-- R34 and the round trip of S2: a return that finds the stack as a call left it restores `PC` to two past the call and
the stack pointer to its depth before the call. The content of the entry is D6. -/
def Obligations.ReturnUndoesCall : Prop :=
  ∀ (nnn : BitVec 12) (s t u : State), exec (.call nnn) s = .next t → u.stack = t.stack → u.sp = t.sp →
    ∃ w, exec .ret u = .next w ∧ w.pc = s.pc + 2 ∧ w.sp = s.sp

/-- R114, R115. -/
def Obligations.SkipsOnALiteral : Prop :=
  EncodedAs 0x3000 0xF000 (fun w => .seImm (xField w) (nnField w)) ∧
  EncodedAs 0x4000 0xF000 (fun w => .sneImm (xField w) (nnField w)) ∧
  (∀ (x : Reg) (nn : Byte) (s : State), ∃ t, exec (.seImm x nn) s = .next t ∧
    (s.getV x = nn → t.pc = s.pc + 4) ∧ (s.getV x ≠ nn → t.pc = s.pc + 2) ∧ Keeps (.seImm x nn) s t) ∧
  (∀ (x : Reg) (nn : Byte) (s : State), ∃ t, exec (.sneImm x nn) s = .next t ∧
    (s.getV x ≠ nn → t.pc = s.pc + 4) ∧ (s.getV x = nn → t.pc = s.pc + 2) ∧ Keeps (.sneImm x nn) s t)

/-- R116, R117. -/
def Obligations.SkipsOnTwoRegisters : Prop :=
  EncodedAs 0x5000 0xF00F (fun w => .seReg (xField w) (yField w)) ∧
  EncodedAs 0x9000 0xF00F (fun w => .sneReg (xField w) (yField w)) ∧
  (∀ (x y : Reg) (s : State), ∃ t, exec (.seReg x y) s = .next t ∧
    (s.getV x = s.getV y → t.pc = s.pc + 4) ∧ (s.getV x ≠ s.getV y → t.pc = s.pc + 2) ∧ Keeps (.seReg x y) s t) ∧
  (∀ (x y : Reg) (s : State), ∃ t, exec (.sneReg x y) s = .next t ∧
    (s.getV x ≠ s.getV y → t.pc = s.pc + 4) ∧ (s.getV x = s.getV y → t.pc = s.pc + 2) ∧ Keeps (.sneReg x y) s t)

/-- R118: the sum is neither masked nor checked (the spec's decision D8). -/
def Obligations.IndexedJumpAddsV0 : Prop :=
  EncodedAs 0xB000 0xF000 (fun w => .jpV0 (nnnField w)) ∧
  ∀ (nnn : BitVec 12) (s : State), ∃ t, exec (.jpV0 nnn) s = .next t ∧
    t.pc.toNat = nnn.toNat + (s.getV 0).toNat ∧ Keeps (.jpV0 nnn) s t

/-! ## Register load and ALU -/

/-- R131. -/
def Obligations.LoadLiteralWritesTheByte : Prop :=
  EncodedAs 0x6000 0xF000 (fun w => .ldImm (xField w) (nnField w)) ∧
  ∀ (x : Reg) (nn : Byte) (s : State), ∃ t, exec (.ldImm x nn) s = .next t ∧
    t.getV x = nn ∧ t.pc = s.pc + 2 ∧ Keeps (.ldImm x nn) s t

/-- R132: modulo 256, and VF is not written as a flag. -/
def Obligations.AddLiteralWrapsWithoutFlag : Prop :=
  EncodedAs 0x7000 0xF000 (fun w => .addImm (xField w) (nnField w)) ∧
  ∀ (x : Reg) (nn : Byte) (s : State), ∃ t, exec (.addImm x nn) s = .next t ∧
    (t.getV x).toNat = ((s.getV x).toNat + nn.toNat) % 256 ∧ t.pc = s.pc + 2 ∧ Keeps (.addImm x nn) s t

/-- R133 to R136. That these four leave VF alone is the spec's decision D15; the numbers 1 to 3 are general knowledge
(R77, D12; log entry 4). -/
def Obligations.AssignAndLogicLeaveFlag : Prop :=
  EncodedAs 0x8000 0xF00F (fun w => .ldReg (xField w) (yField w)) ∧
  EncodedAs 0x8001 0xF00F (fun w => .orReg (xField w) (yField w)) ∧
  EncodedAs 0x8002 0xF00F (fun w => .andReg (xField w) (yField w)) ∧
  EncodedAs 0x8003 0xF00F (fun w => .xorReg (xField w) (yField w)) ∧
  ∀ (x y : Reg) (s : State),
    (∃ t, exec (.ldReg x y) s = .next t ∧ t.getV x = s.getV y ∧ t.pc = s.pc + 2 ∧ Keeps (.ldReg x y) s t) ∧
    (∃ t, exec (.orReg x y) s = .next t ∧
      (∀ j < 8, (t.getV x).getLsbD j = ((s.getV x).getLsbD j || (s.getV y).getLsbD j)) ∧
      t.pc = s.pc + 2 ∧ Keeps (.orReg x y) s t) ∧
    (∃ t, exec (.andReg x y) s = .next t ∧
      (∀ j < 8, (t.getV x).getLsbD j = ((s.getV x).getLsbD j && (s.getV y).getLsbD j)) ∧
      t.pc = s.pc + 2 ∧ Keeps (.andReg x y) s t) ∧
    (∃ t, exec (.xorReg x y) s = .next t ∧
      (∀ j < 8, (t.getV x).getLsbD j = ((s.getV x).getLsbD j ^^ (s.getV y).getLsbD j)) ∧
      t.pc = s.pc + 2 ∧ Keeps (.xorReg x y) s t)

/-- R137: VF is the carry, also where X is F (D14). The number 4 is general knowledge (R77, D12; log entry 4). -/
def Obligations.AddRegistersCarriesIntoFlag : Prop :=
  EncodedAs 0x8004 0xF00F (fun w => .addReg (xField w) (yField w)) ∧
  ∀ (x y : Reg) (s : State), ∃ t, exec (.addReg x y) s = .next t ∧
    (x ≠ 0xF → (t.getV x).toNat = ((s.getV x).toNat + (s.getV y).toNat) % 256) ∧
    (t.getV 0xF).toNat = (if 255 < (s.getV x).toNat + (s.getV y).toNat then 1 else 0) ∧
    t.pc = s.pc + 2 ∧ Keeps (.addReg x y) s t

/-- R138, R140: VF is 1 iff there is no borrow, also where X is F (D14). The numbers 5 and 7 are general knowledge (R77,
D12; log entry 4). -/
def Obligations.SubtractionsPutNoBorrowIntoFlag : Prop :=
  EncodedAs 0x8005 0xF00F (fun w => .subReg (xField w) (yField w)) ∧
  EncodedAs 0x8007 0xF00F (fun w => .subnReg (xField w) (yField w)) ∧
  (∀ (x y : Reg) (s : State), ∃ t, exec (.subReg x y) s = .next t ∧
    (x ≠ 0xF → (t.getV x).toNat = ((s.getV x).toNat + 256 - (s.getV y).toNat) % 256) ∧
    (t.getV 0xF).toNat = (if (s.getV y).toNat ≤ (s.getV x).toNat then 1 else 0) ∧
    t.pc = s.pc + 2 ∧ Keeps (.subReg x y) s t) ∧
  (∀ (x y : Reg) (s : State), ∃ t, exec (.subnReg x y) s = .next t ∧
    (x ≠ 0xF → (t.getV x).toNat = ((s.getV y).toNat + 256 - (s.getV x).toNat) % 256) ∧
    (t.getV 0xF).toNat = (if (s.getV x).toNat ≤ (s.getV y).toNat then 1 else 0) ∧
    t.pc = s.pc + 2 ∧ Keeps (.subnReg x y) s t)

/-- R139, R141, for either value of the open parameter `SHIFT_SOURCE` (D13; log entry 1): VF is the bit shifted out, also
where X is F (D14). The number 6 is general knowledge (R77, D12; log entry 4). -/
def Obligations.ShiftsPutTheLostBitIntoFlag : Prop :=
  EncodedAs 0x8006 0xF00F (fun w => .shr (xField w) (yField w)) ∧
  EncodedAs 0x800E 0xF00F (fun w => .shl (xField w) (yField w)) ∧
  (∀ (x y : Reg) (s : State), ∃ t, exec (.shr x y) s = .next t ∧
    (x ≠ 0xF → (t.getV x).toNat = (s.getV (if Config.shiftSource = .vx then x else y)).toNat / 2) ∧
    (t.getV 0xF).toNat = (s.getV (if Config.shiftSource = .vx then x else y)).toNat % 2 ∧
    t.pc = s.pc + 2 ∧ Keeps (.shr x y) s t) ∧
  (∀ (x y : Reg) (s : State), ∃ t, exec (.shl x y) s = .next t ∧
    (x ≠ 0xF → (t.getV x).toNat = (s.getV (if Config.shiftSource = .vx then x else y)).toNat * 2 % 256) ∧
    (t.getV 0xF).toNat = (s.getV (if Config.shiftSource = .vx then x else y)).toNat / 128 ∧
    t.pc = s.pc + 2 ∧ Keeps (.shl x y) s t)

/-- R142: the result is the drawn byte, bit by bit where `NN` is 1, and 0 where it is 0. The byte is a free value, the
model's `Config.randomByte` at the number of draws so far (D23; log entry 2), so this holds for every byte. -/
def Obligations.RandomByteIsMaskedAndFresh : Prop :=
  EncodedAs 0xC000 0xF000 (fun w => .rnd (xField w) (nnField w)) ∧
  ∀ (x : Reg) (nn : Byte) (s : State), ∃ t, exec (.rnd x nn) s = .next t ∧
    (∀ j < 8, (t.getV x).getLsbD j = ((Config.randomByte s.rndIndex).getLsbD j && nn.getLsbD j)) ∧
    t.rndIndex = s.rndIndex + 1 ∧ t.pc = s.pc + 2 ∧ Keeps (.rnd x nn) s t

/-! ## Index register and memory -/

/-- R151. -/
def Obligations.LoadIndexWritesTheLiteral : Prop :=
  EncodedAs 0xA000 0xF000 (fun w => .ldI (nnnField w)) ∧
  ∀ (nnn : BitVec 12) (s : State), ∃ t, exec (.ldI nnn) s = .next t ∧
    t.i.toNat = nnn.toNat ∧ t.pc = s.pc + 2 ∧ Keeps (.ldI nnn) s t

/-- R152: the sum modulo 65536, and VF 1 iff the unreduced sum exceeds 0x0FFF (the spec's decision D16). -/
def Obligations.AddToIndexFlagsPastMemory : Prop :=
  EncodedAs 0xF01E 0xF0FF (fun w => .addI (xField w)) ∧
  ∀ (x : Reg) (s : State), ∃ t, exec (.addI x) s = .next t ∧
    t.i.toNat = (s.i.toNat + (s.getV x).toNat) % 65536 ∧
    (t.getV 0xF).toNat = (if 0x0FFF < s.i.toNat + (s.getV x).toNat then 1 else 0) ∧
    t.pc = s.pc + 2 ∧ Keeps (.addI x) s t

/-- R153, R7: `I` is five times the register, unmasked (the spec's decision D22), and so, where the register is a digit and
low memory holds the font, the address of the digit's five bytes. -/
def Obligations.GlyphAddressIsFiveTimesTheDigit : Prop :=
  EncodedAs 0xF029 0xF0FF (fun w => .ldF (xField w)) ∧
  ∀ (x : Reg) (s : State), ∃ t, exec (.ldF x) s = .next t ∧
    t.i.toNat = (s.getV x).toNat * 5 ∧ t.pc = s.pc + 2 ∧ Keeps (.ldF x) s t ∧
    ((∀ k < 80, s.mem.read k = fontTable.getD k 0) → (s.getV x).toNat < 16 →
      ∀ j < 5, t.mem.read (t.i.toNat + j) = fontTable.getD ((s.getV x).toNat * 5 + j) 0)

/-- R154: hundreds, tens and ones at `I`, `I` + 1 and `I` + 2, or `OutOfBounds` and no byte written. Memory in canonical
form is what makes a write be read back. -/
def Obligations.DecimalDigitsAreStored : Prop :=
  EncodedAs 0xF033 0xF0FF (fun w => .ldB (xField w)) ∧
  (∀ (x : Reg) (s : State), 0xFFF < s.i.toNat + 2 → exec (.ldB x) s = .fault (.outOfBounds (s.i.toNat + 2))) ∧
  (∀ (x : Reg) (s : State), s.i.toNat + 2 ≤ 0xFFF → ∃ t, exec (.ldB x) s = .next t ∧
    (s.mem.wf → (t.mem.read s.i.toNat).toNat = (s.getV x).toNat / 100 ∧
      (t.mem.read (s.i.toNat + 1)).toNat = (s.getV x).toNat / 10 % 10 ∧
      (t.mem.read (s.i.toNat + 2)).toNat = (s.getV x).toNat % 10) ∧
    t.pc = s.pc + 2 ∧ Keeps (.ldB x) s t)

/-- R155: the registers V0 to VX at `I` upward and `I` past the block (the spec's decision D19), or `OutOfBounds` and nothing
written (D18). -/
def Obligations.RegistersAreStoredAndIndexAdvances : Prop :=
  EncodedAs 0xF055 0xF0FF (fun w => .storeRegs (xField w)) ∧
  (∀ (x : Reg) (s : State), 0xFFF < s.i.toNat + x.val →
    exec (.storeRegs x) s = .fault (.outOfBounds (s.i.toNat + x.val))) ∧
  (∀ (x : Reg) (s : State), s.i.toNat + x.val ≤ 0xFFF → ∃ t, exec (.storeRegs x) s = .next t ∧
    (s.mem.wf → ∀ k : Reg, k ≤ x → t.mem.read (s.i.toNat + k.val) = s.getV k) ∧
    t.i.toNat = s.i.toNat + x.val + 1 ∧ t.pc = s.pc + 2 ∧ Keeps (.storeRegs x) s t)

/-- R156: the bytes at `I` upward in V0 to VX and `I` past the block (the spec's decision D19), or `OutOfBounds` and no
register loaded (D18). -/
def Obligations.RegistersAreLoadedAndIndexAdvances : Prop :=
  EncodedAs 0xF065 0xF0FF (fun w => .loadRegs (xField w)) ∧
  (∀ (x : Reg) (s : State), 0xFFF < s.i.toNat + x.val →
    exec (.loadRegs x) s = .fault (.outOfBounds (s.i.toNat + x.val))) ∧
  (∀ (x : Reg) (s : State), s.i.toNat + x.val ≤ 0xFFF → ∃ t, exec (.loadRegs x) s = .next t ∧
    (∀ k : Reg, k ≤ x → t.getV k = s.mem.read (s.i.toNat + k.val)) ∧
    t.i.toNat = s.i.toNat + x.val + 1 ∧ t.pc = s.pc + 2 ∧ Keeps (.loadRegs x) s t)

/-- R155, R156, R241: registers stored and then loaded from the same address come back. -/
def Obligations.LoadedBlockIsTheStoredBlock : Prop :=
  ∀ (x : Reg) (s t u : State), s.mem.wf → exec (.storeRegs x) s = .next t → u.mem = t.mem → u.i = s.i →
    ∃ w, exec (.loadRegs x) u = .next w ∧ ∀ k : Reg, k ≤ x → w.getV k = s.getV k

/-! ## Display -/

/-- R171: every pixel unset, and `DRAW` set also where nothing changed (the spec's decision D34). -/
def Obligations.ClearUnsetsEveryPixel : Prop :=
  EncodedAs 0x00E0 0xFFFF (fun _ => .cls) ∧
  ∀ s : State, ∃ t, exec .cls s = .next t ∧ (∀ (px : Fin 64) (py : Fin 32), t.fb.pixel px py = false) ∧
    t.draw = true ∧ t.pc = s.pc + 2 ∧ Keeps .cls s t

/-- R172: each pixel is XORed with the sprite, wrapped on its own (the spec's decision D17, bit 7 leftmost from general
knowledge; log entry 4); VF is 1 iff a pixel went from set to unset; `DRAW` is set also where nothing changed (D34); or
`OutOfBounds` and nothing drawn (D18). -/
def Obligations.DrawXorsTheSprite : Prop :=
  EncodedAs 0xD000 0xF000 (fun w => .drw (xField w) (yField w) (nField w).toNat) ∧
  (∀ (x y : Reg) (n : Nat) (s : State), 0 < n → 0xFFF < s.i.toNat + n - 1 →
    exec (.drw x y n) s = .fault (.outOfBounds (s.i.toNat + n - 1))) ∧
  (∀ (x y : Reg) (n : Nat) (s : State), n ≤ 15 → (n = 0 ∨ s.i.toNat + n - 1 ≤ 0xFFF) →
    ∃ t, exec (.drw x y n) s = .next t ∧
      (∀ (px : Fin 64) (py : Fin 32),
        t.fb.pixel px py = true ↔ ¬(s.fb.pixel px py = true ↔ SpriteCovers s x y n px py)) ∧
      ((∃ px py, s.fb.pixel px py = true ∧ SpriteCovers s x y n px py) → t.getV 0xF = 1) ∧
      ((∀ px py, s.fb.pixel px py = true → ¬SpriteCovers s x y n px py) → t.getV 0xF = 0) ∧
      t.draw = true ∧ t.pc = s.pc + 2 ∧ Keeps (.drw x y n) s t)

/-- R173(a): drawing a sprite twice at one place restores the framebuffer, and the second draw reports a collision
whenever the first set a pixel. With X or Y equal to F the place would not stay the same: the first draw overwrites VF, so
the second draws elsewhere, and `DrawXorsTheSprite` says what each of the two does. -/
def Obligations.DrawingTwiceRestoresTheFramebuffer : Prop :=
  ∀ (x y : Reg) (n : Nat) (s t u : State), n ≤ 15 → x ≠ 0xF → y ≠ 0xF →
    exec (.drw x y n) s = .next t → exec (.drw x y n) t = .next u →
    u.fb = s.fb ∧
    ((∃ px py, s.fb.pixel px py = false ∧ t.fb.pixel px py = true) → u.getV 0xF = 1)

/-! ## Keys and timers -/

/-- R181, R182: the tested key is the one the register names; an index above 15 is out of bounds (the spec's decision
D21). -/
def Obligations.KeySkipsTestTheNamedKey : Prop :=
  EncodedAs 0xE09E 0xF0FF (fun w => .skp (xField w)) ∧
  EncodedAs 0xE0A1 0xF0FF (fun w => .sknp (xField w)) ∧
  (∀ (x : Reg) (s : State), 15 < (s.getV x).toNat →
    exec (.skp x) s = .fault (.outOfBounds (s.getV x).toNat) ∧
    exec (.sknp x) s = .fault (.outOfBounds (s.getV x).toNat)) ∧
  (∀ (x : Reg) (s : State) (k : Fin 16), (s.getV x).toNat = k.val →
    (∃ t, exec (.skp x) s = .next t ∧ (s.keys[k] = true → t.pc = s.pc + 4) ∧
      (s.keys[k] = false → t.pc = s.pc + 2) ∧ Keeps (.skp x) s t) ∧
    (∃ t, exec (.sknp x) s = .next t ∧ (s.keys[k] = false → t.pc = s.pc + 4) ∧
      (s.keys[k] = true → t.pc = s.pc + 2) ∧ Keeps (.sknp x) s t))

/-- R183: with no key down nothing is written; else the lowest key that is down goes to the register (the spec's decision
D20). -/
def Obligations.KeyWaitTakesTheLowestKey : Prop :=
  EncodedAs 0xF00A 0xF0FF (fun w => .ldVxK (xField w)) ∧
  (∀ (x : Reg) (s : State), (∀ k : Fin 16, s.keys[k] = false) → exec (.ldVxK x) s = .next s) ∧
  (∀ (x : Reg) (s : State) (k : Fin 16), s.keys[k] = true → (∀ j : Fin 16, j < k → s.keys[j] = false) →
    ∃ t, exec (.ldVxK x) s = .next t ∧ (t.getV x).toNat = k.val ∧ t.pc = s.pc + 2 ∧ Keeps (.ldVxK x) s t)

/-- R100, R243: while the host presses no key, a program at `FX0A` stays there for any number of steps, each of which
completes and counts both timers down (the spec's decision D20). -/
def Obligations.KeyWaitSpinsWhileTimersRun : Prop :=
  ∀ (n : Nat) (x : Reg) (s : State), fetchDecode s = .ok (.ldVxK x) → (∀ k : Fin 16, s.keys[k] = false) →
    ∃ t, core.run n s = .next t ∧ t.pc = s.pc ∧ t.dt.toNat = s.dt.toNat - n ∧ t.st.toNat = s.st.toNat - n ∧
      t = { s with dt := t.dt, st := t.st, tone := t.tone }

/-- R184, R97: the value read is `DT` before the tick of the same step. -/
def Obligations.DelayTimerIsReadBeforeTheTick : Prop :=
  EncodedAs 0xF007 0xF0FF (fun w => .ldVxDt (xField w)) ∧
  ∀ (x : Reg) (s : State), ∃ t, exec (.ldVxDt x) s = .next t ∧
    t.getV x = s.dt ∧ (tick t).dt.toNat = s.dt.toNat - 1 ∧ t.pc = s.pc + 2 ∧ Keeps (.ldVxDt x) s t

/-- R185, R186: the timer takes the register's value and the tick of the same step counts it down (the spec's decision
D25). -/
def Obligations.TimersAreSetBeforeTheTick : Prop :=
  EncodedAs 0xF015 0xF0FF (fun w => .ldDtVx (xField w)) ∧
  EncodedAs 0xF018 0xF0FF (fun w => .ldStVx (xField w)) ∧
  (∀ (x : Reg) (s : State), ∃ t, exec (.ldDtVx x) s = .next t ∧ t.dt = s.getV x ∧
    (tick t).dt.toNat = (s.getV x).toNat - 1 ∧ t.pc = s.pc + 2 ∧ Keeps (.ldDtVx x) s t) ∧
  (∀ (x : Reg) (s : State), ∃ t, exec (.ldStVx x) s = .next t ∧ t.st = s.getV x ∧
    (tick t).st.toNat = (s.getV x).toNat - 1 ∧ ((tick t).tone = true ↔ (s.getV x).toNat = 1) ∧
    t.pc = s.pc + 2 ∧ Keeps (.ldStVx x) s t)

/-! ## Rules of the whole machine -/

/-- R101: at a jump to itself every further step completes and changes nothing but the timers, which run down, and
`TONE`. -/
def Obligations.SelfJumpOnlyRunsTheTimersDown : Prop :=
  ∀ (n : Nat) (nnn : BitVec 12) (s : State), fetchDecode s = .ok (.jp nnn) → nnn.toNat = s.pc.toNat →
    ∃ t, core.run n s = .next t ∧ t.dt.toNat = s.dt.toNat - n ∧ t.st.toNat = s.st.toNat - n ∧
      t = { s with dt := t.dt, st := t.st, tone := t.tone }

/-- R216, R217, R30: the engine never writes a key and never clears the redraw flag, and where the framebuffer changed the
flag is set. -/
def Obligations.EngineKeepsKeysAndRedrawFlag : Prop :=
  ∀ s t : State, step s = .next t →
    t.keys = s.keys ∧ (s.draw = true → t.draw = true) ∧ (t.fb ≠ s.fb → t.draw = true)

/-- R36, R217: the input matrix is read by the three key instructions only: under another matrix every other instruction
has the same outcome. -/
def Obligations.OnlyKeyInstructionsReadKeys : Prop :=
  ∀ (i : Instr) (s : State) (keys : Vector Bool 16), readsKeys i = false →
    exec i (writeKeys keys s) = mapNext (writeKeys keys) (exec i s)

/-- R37: an instruction other than `CXNN` ignores the random byte: at another place in the model's stream of draws (log
entry 2) it has the same outcome. -/
def Obligations.OnlyRandomInstructionReadsRandomBytes : Prop :=
  ∀ (i : Instr) (s : State) (n : Nat), (∀ x nn, i ≠ .rnd x nn) →
    exec i { s with rndIndex := n } = mapNext (fun t => { t with rndIndex := n }) (exec i s)

/-- R32, R38: the sound timer and the tone are read by no instruction: with other values of the two, every instruction
that does not set the sound timer has the same outcome, the two values kept. -/
def Obligations.NoInstructionReadsTheSoundTimer : Prop :=
  ∀ (i : Instr) (s : State) (st : Byte) (tone : Bool), (∀ x, i ≠ .ldStVx x) →
    exec i { s with st := st, tone := tone } = mapNext (fun t => { t with st := st, tone := tone }) (exec i s)

/-- The invariant holds at power-on and at reset. -/
def Obligations.InvariantHoldsAtPowerOnAndReset : Prop := Inv State.powerOn ∧ Inv State.reset

/-- R41, R26, R34: every step keeps memory in its canonical form, `PC` at most 0x10FE, and every live stack entry two past
a fetched address. -/
def Obligations.StepKeepsTheInvariant : Prop := ∀ s t : State, Inv s → step s = .next t → Inv t

/-- R41: every move of the host keeps the invariant, any font table and any image included. -/
def Obligations.HostMovesKeepTheInvariant : Prop :=
  ∀ (m : HostMove) (s t : State), Inv s → hostMove m s = .next t → Inv t

/-- R41: every state reached from power-on by steps and host moves, in any order, has the invariant. A statement about
runs: the step of the induction is `StepKeepsTheInvariant` with `HostMovesKeepTheInvariant`. -/
def Obligations.ReachableStatesHaveTheInvariant : Prop := ∀ s : State, Reachable s → Inv s

/-! ## Reset and the host -/

/-- R231 to R233: power-on is everything zero, reset is power-on followed by `initialize`, and its values. The values of
power-on and the composition are the spec's decisions D4 and D5; the released keys and the lowered tone are the model's
(log entries 5 and 6). -/
def Obligations.ResetIsPowerOnThenInitialize : Prop :=
  hostInitialize State.powerOn = State.reset ∧
  (∀ a < 4096, State.powerOn.mem.read a = 0) ∧ State.powerOn.pc = 0 ∧
  State.reset.pc = 0x0200 ∧ (∀ k < 80, State.reset.mem.read k = fontTable.getD k 0) ∧
  (∀ a, 80 ≤ a → a < 4096 → State.reset.mem.read a = 0) ∧ (∀ k : Reg, State.reset.getV k = 0) ∧
  State.reset.i = 0 ∧ State.reset.sp = 0 ∧ (∀ k : Fin 16, State.reset.stack[k] = 0) ∧ State.reset.dt = 0 ∧
  State.reset.st = 0 ∧ (∀ px py, State.reset.fb.pixel px py = false) ∧ State.reset.draw = false

/-- R232, for every font table of 80 bytes: what `initialize` writes, that it writes nothing else, and that doing it twice
is doing it once. That "flags" is the redraw flag alone is the spec's decision D5. -/
def Obligations.InitializeWritesFontAndEntry : Prop :=
  ∀ (font : Vector Byte 80) (s : State), s.mem.wf →
    (hostInitializeWith font.toList s).pc = 0x0200 ∧
    (∀ k : Fin 80, (hostInitializeWith font.toList s).mem.read k.val = font[k]) ∧
    (∀ a, 80 ≤ a → (hostInitializeWith font.toList s).mem.read a = s.mem.read a) ∧
    (∀ px py, (hostInitializeWith font.toList s).fb.pixel px py = false) ∧
    (hostInitializeWith font.toList s).draw = false ∧
    hostInitializeWith font.toList s =
      { s with
        pc := (hostInitializeWith font.toList s).pc, mem := (hostInitializeWith font.toList s).mem,
        fb := (hostInitializeWith font.toList s).fb, draw := (hostInitializeWith font.toList s).draw } ∧
    hostInitializeWith font.toList (hostInitializeWith font.toList s) = hostInitializeWith font.toList s

/-- R235, S5: an image is rejected exactly where it does not fit, and is then found byte for byte at its addresses, with
every other byte and all else as before. That nothing is copied on rejection is the spec's decision D28. -/
def Obligations.ProgramIsLoadedWholeOrRejected : Prop :=
  ∀ (bytes : List Byte) (s : State),
    (4096 < 0x200 + bytes.length → hostLoadProgram bytes s = .fault (.outOfBounds bytes.length)) ∧
    (0x200 + bytes.length ≤ 4096 → ∃ t, hostLoadProgram bytes s = .next t ∧ t = { s with mem := t.mem } ∧
      (s.mem.wf → ∀ k (h : k < bytes.length), t.mem.read (0x200 + k) = bytes[k]) ∧
      (∀ a, a < 0x200 ∨ 0x200 + bytes.length ≤ a → t.mem.read a = s.mem.read a))

/-- R215, R216: the pixel port reads the framebuffer and rejects a coordinate outside the screen (the spec's decision D26;
the number recorded is the model's, log entry 8); `needs_redraw` returns the flag, and clearing it clears nothing else. -/
def Obligations.HostPortsReadPixelsAndRedrawFlag : Prop :=
  ∀ s : State,
    (∀ (x : Fin 64) (y : Fin 32), framebufferPixelChecked s x.val y.val = .ok (s.fb.pixel x y)) ∧
    (∀ x y : Nat, 63 < x ∨ 31 < y → ∃ n, framebufferPixelChecked s x y = .error (.outOfBounds n)) ∧
    needsRedraw s = s.draw ∧ needsRedraw (clearRedrawFlag s) = false ∧
    clearRedrawFlag s = { s with draw := false }
end

