-- ==== Sys2Proof/Laws/Decode.lean ====
section
/-! SUPPORT. The fields of the words that the encoder puts together, the words that their fields put together, and the
masks of R76. -/

namespace Sys2Proof

/-! ## Slices of an appended word -/

theorem slice_high {m n : Nat} (h : BitVec m) (l : BitVec n) (k len : Nat) :
    (h ++ l).extractLsb' (n + k) len = h.extractLsb' k len := by
  ext i hi
  simp [BitVec.getLsbD_append, Nat.add_assoc]

theorem slice_low {m n : Nat} (h : BitVec m) (l : BitVec n) {k len : Nat} (hk : k + len ≤ n) :
    (h ++ l).extractLsb' k len = l.extractLsb' k len := by
  ext i hi
  simp [BitVec.getLsbD_append, show k + i < n by omega]

theorem slice_whole {n : Nat} (b : BitVec n) : b.extractLsb' 0 n = b := by
  ext i hi
  simp

theorem slices_append {m n : Nat} (w : BitVec (m + n)) : w.extractLsb' n m ++ w.extractLsb' 0 n = w := by
  ext i hi
  rw [BitVec.getElem_append]
  split
  · next h => simp [BitVec.getLsbD_eq_getElem hi]
  · next h => simp [show n + (i - n) = i by omega, hi]

/-- The value of `w &&& mask` for a mask of whole fields, as an equation between the fields. -/
theorem and_append {m n : Nat} (h h' : BitVec m) (l l' : BitVec n) :
    (h ++ l) &&& (h' ++ l') = (h &&& h') ++ (l &&& l') := by
  ext i hi
  simp only [BitVec.getElem_and, BitVec.getElem_append]
  split <;> simp

/-! ## Registers as fields -/

@[simp] theorem Reg.ofBits_bits (r : Reg) : Reg.ofBits r.bits = r := rfl
@[simp] theorem Reg.bits_ofBits (b : BitVec 4) : (Reg.ofBits b).bits = b := rfl

/-! ## Format NNN -/

@[simp] theorem opField_formatNNN (op : BitVec 4) (a : BitVec 12) : opField (formatNNN op a) = op :=
  (slice_high op a 0 4).trans (slice_whole op)

@[simp] theorem nnnField_formatNNN (op : BitVec 4) (a : BitVec 12) : nnnField (formatNNN op a) = a :=
  (slice_low op a (by omega)).trans (slice_whole a)

theorem formatNNN_fields (w : Word) : formatNNN (opField w) (nnnField w) = w := slices_append (m := 4) (n := 12) w

/-! ## Format XNN -/

@[simp] theorem opField_formatXNN (op : BitVec 4) (x : Reg) (nn : Byte) : opField (formatXNN op x nn) = op :=
  (slice_high (op ++ x.bits) nn 4 4).trans ((slice_high op x.bits 0 4).trans (slice_whole op))

@[simp] theorem xBits_formatXNN (op : BitVec 4) (x : Reg) (nn : Byte) : xBits (formatXNN op x nn) = x.bits :=
  (slice_high (op ++ x.bits) nn 0 4).trans ((slice_low op x.bits (by omega)).trans (slice_whole x.bits))

@[simp] theorem xField_formatXNN (op : BitVec 4) (x : Reg) (nn : Byte) : xField (formatXNN op x nn) = x := by
  rw [xField, xBits_formatXNN, Reg.ofBits_bits]

@[simp] theorem nnField_formatXNN (op : BitVec 4) (x : Reg) (nn : Byte) : nnField (formatXNN op x nn) = nn :=
  (slice_low (op ++ x.bits) nn (by omega)).trans (slice_whole nn)

/-! ## Format XYN -/

@[simp] theorem opField_formatXYN (op : BitVec 4) (x y : Reg) (n : BitVec 4) : opField (formatXYN op x y n) = op :=
  (slice_high (op ++ x.bits ++ y.bits) n 8 4).trans
    ((slice_high (op ++ x.bits) y.bits 4 4).trans ((slice_high op x.bits 0 4).trans (slice_whole op)))

@[simp] theorem xBits_formatXYN (op : BitVec 4) (x y : Reg) (n : BitVec 4) : xBits (formatXYN op x y n) = x.bits :=
  (slice_high (op ++ x.bits ++ y.bits) n 4 4).trans
    ((slice_high (op ++ x.bits) y.bits 0 4).trans ((slice_low op x.bits (by omega)).trans (slice_whole x.bits)))

@[simp] theorem yBits_formatXYN (op : BitVec 4) (x y : Reg) (n : BitVec 4) : yBits (formatXYN op x y n) = y.bits :=
  (slice_high (op ++ x.bits ++ y.bits) n 0 4).trans
    ((slice_low (op ++ x.bits) y.bits (by omega)).trans (slice_whole y.bits))

@[simp] theorem xField_formatXYN (op : BitVec 4) (x y : Reg) (n : BitVec 4) : xField (formatXYN op x y n) = x := by
  rw [xField, xBits_formatXYN, Reg.ofBits_bits]

@[simp] theorem yField_formatXYN (op : BitVec 4) (x y : Reg) (n : BitVec 4) : yField (formatXYN op x y n) = y := by
  rw [yField, yBits_formatXYN, Reg.ofBits_bits]

@[simp] theorem nField_formatXYN (op : BitVec 4) (x y : Reg) (n : BitVec 4) : nField (formatXYN op x y n) = n :=
  (slice_low (op ++ x.bits ++ y.bits) n (by omega)).trans (slice_whole n)

/-! ## The other formats are views of the same word -/

theorem nnnField_split (w : Word) : nnnField w = xBits w ++ nnField w :=
  (slices_append (m := 4) (n := 8) (nnnField w)).symm.trans <| by
    congr 1
    · ext i hi
      simp [nnnField, xBits]
    · ext i hi
      simp [nnnField, nnField]

theorem nnField_split (w : Word) : nnField w = yBits w ++ nField w :=
  (slices_append (m := 4) (n := 4) (nnField w)).symm.trans <| by
    congr 1
    · ext i hi
      simp [nnField, yBits]
    · ext i hi
      simp [nnField, nField]

theorem formatXNN_fields (w : Word) : formatXNN (opField w) (xField w) (nnField w) = w := by
  refine Eq.trans ?_ (formatNNN_fields w)
  rw [formatNNN, nnnField_split]
  exact BitVec.append_assoc ..

theorem formatXYN_fields (w : Word) : formatXYN (opField w) (xField w) (yField w) (nField w) = w := by
  refine Eq.trans ?_ (formatXNN_fields w)
  rw [formatXNN, nnField_split]
  exact BitVec.append_assoc ..

/-! ## The two bytes of a word -/

@[simp] theorem wordOfBytes_bytes (w : Word) : wordOfBytes (hiByte w) (loByte w) = w :=
  slices_append (m := 8) (n := 8) w

@[simp] theorem hiByte_wordOfBytes (h l : Byte) : hiByte (wordOfBytes h l) = h :=
  (slice_high h l 0 8).trans (slice_whole h)

@[simp] theorem loByte_wordOfBytes (h l : Byte) : loByte (wordOfBytes h l) = l :=
  (slice_low h l (by omega)).trans (slice_whole l)

/-! ## The masks of R76: what a masked word says about the word's fields -/

theorem and_F000 (w : Word) : w &&& 0xF000 = formatNNN (opField w) 0 := by
  conv_lhs => rw [← formatNNN_fields w]
  refine (and_append (opField w) 0xF#4 (nnnField w) 0#12).trans ?_
  rw [show (0xF#4 : BitVec 4) = BitVec.allOnes 4 from rfl, BitVec.and_allOnes, BitVec.and_zero]
  rfl

theorem and_F0FF (w : Word) : w &&& 0xF0FF = formatXNN (opField w) 0 (nnField w) := by
  conv_lhs => rw [← formatXNN_fields w]
  refine (and_append (opField w ++ (xField w).bits) (0xF#4 ++ 0#4) (nnField w) 0xFF#8).trans ?_
  rw [and_append, show (0xF#4 : BitVec 4) = BitVec.allOnes 4 from rfl, show (0xFF#8 : BitVec 8) = BitVec.allOnes 8 from rfl,
    BitVec.and_allOnes, BitVec.and_allOnes, BitVec.and_zero]
  rfl

theorem and_F00F (w : Word) : w &&& 0xF00F = formatXYN (opField w) 0 0 (nField w) := by
  conv_lhs => rw [← formatXYN_fields w]
  refine (and_append (opField w ++ (xField w).bits ++ (yField w).bits) (0xF#4 ++ 0#4 ++ 0#4) (nField w) 0xF#4).trans ?_
  rw [and_append, and_append, show (0xF#4 : BitVec 4) = BitVec.allOnes 4 from rfl, BitVec.and_allOnes, BitVec.and_allOnes,
    BitVec.and_zero, BitVec.and_zero]
  rfl

/-- A row with mask 0xF000 takes exactly the words of its family. -/
theorem and_F000_iff (w : Word) (op : BitVec 4) : w &&& 0xF000 = formatNNN op 0 ↔ opField w = op := by
  rw [and_F000]
  exact ⟨fun h => by simpa using congrArg opField h, fun h => by rw [h]⟩

/-- A row with mask 0xF0FF takes exactly the words of its family with its low byte. -/
theorem and_F0FF_iff (w : Word) (op : BitVec 4) (nn : Byte) :
    w &&& 0xF0FF = formatXNN op 0 nn ↔ opField w = op ∧ nnField w = nn := by
  rw [and_F0FF]
  refine ⟨fun h => ⟨by simpa using congrArg opField h, by simpa using congrArg nnField h⟩, ?_⟩
  rintro ⟨rfl, rfl⟩
  rfl

/-- A row with mask 0xF00F takes exactly the words of its family with its low nibble. -/
theorem and_F00F_iff (w : Word) (op n : BitVec 4) :
    w &&& 0xF00F = formatXYN op 0 0 n ↔ opField w = op ∧ nField w = n := by
  rw [and_F00F]
  refine ⟨fun h => ⟨by simpa using congrArg opField h, by simpa using congrArg nField h⟩, ?_⟩
  rintro ⟨rfl, rfl⟩
  rfl

end Sys2Proof
end

