-- ==== Sys2Proof/Laws/Framebuffer.lean ====
section
/-! SUPPORT. The pixels of the framebuffer after a flip, a clear, and the drawing of a sprite. -/

namespace Sys2Proof.Machine

theorem Framebuffer.pixel_flip (fb : Framebuffer) (x x' : Fin 64) (y y' : Fin 32) :
    (fb.flip x y).pixel x' y' = if x' = x ∧ y' = y then !fb.pixel x y else fb.pixel x' y' := by
  simp only [Framebuffer.flip, Framebuffer.pixel, Fin.getElem_fin, Vector.getElem_set, Fin.ext_iff]
  by_cases hy : y.val = y'.val
  · by_cases hx : x.val = x'.val
    · simp [hy, hx]
    · simp [hy, hx, Ne.symm hx]
  · simp [hy, Ne.symm hy]

@[simp] theorem Framebuffer.pixel_clear (x : Fin 64) (y : Fin 32) : Framebuffer.clear.pixel x y = false := by
  simp [Framebuffer.clear, Framebuffer.pixel]

/-- Two framebuffers with the same pixels are the same. -/
theorem Framebuffer.ext_pixel {a b : Framebuffer} (h : ∀ x y, a.pixel x y = b.pixel x y) : a = b := by
  apply Vector.ext
  intro y hy
  apply Vector.ext
  intro x hx
  exact h ⟨x, hx⟩ ⟨y, hy⟩

/-- Drawing from any framebuffer and collision so far, at pixels that are all different. -/
theorem foldl_drawPixel {ps : List (Fin 64 × Fin 32)} (hp : ps.Nodup) (fb : Framebuffer) (hit : Bool) :
    (∀ x y, (ps.foldl drawPixel (fb, hit)).1.pixel x y = (fb.pixel x y ^^ decide ((x, y) ∈ ps))) ∧
      (ps.foldl drawPixel (fb, hit)).2 = (hit || ps.any fun p => fb.pixel p.1 p.2) := by
  induction ps generalizing fb hit with
  | nil => simp
  | cons p ps ih =>
    obtain ⟨hnot, hp⟩ := List.nodup_cons.mp hp
    obtain ⟨ih1, ih2⟩ := ih hp (fb.flip p.1 p.2) (hit || fb.pixel p.1 p.2)
    refine ⟨fun x y => ?_, ?_⟩
    · rw [List.foldl_cons, drawPixel, ih1, Framebuffer.pixel_flip]
      by_cases h : x = p.1 ∧ y = p.2
      · obtain ⟨rfl, rfl⟩ := h
        simp [hnot]
      · have : (x, y) ≠ p := fun he => h (by simp [← he])
        simp [h, this]
    · rw [List.foldl_cons, drawPixel, ih2, List.any_cons, Bool.or_assoc]
      congr 2
      rw [Bool.eq_iff_iff, List.any_eq_true, List.any_eq_true]
      have hne : ∀ q ∈ ps, ¬(q.1 = p.1 ∧ q.2 = p.2) := fun q hq he => hnot (Prod.ext he.1 he.2 ▸ hq)
      constructor <;> rintro ⟨q, hq, hb⟩ <;> exact ⟨q, hq, by simpa [Framebuffer.pixel_flip, hne q hq] using hb⟩

/-- Drawing at different pixels is an XOR with the set of those pixels. -/
theorem drawPixels_pixel {ps : List (Fin 64 × Fin 32)} (hp : ps.Nodup) (fb : Framebuffer) (x : Fin 64) (y : Fin 32) :
    (drawPixels fb ps).1.pixel x y = (fb.pixel x y ^^ decide ((x, y) ∈ ps)) :=
  (foldl_drawPixel hp fb false).1 x y

/-- The collision is that one of the pixels was set before. -/
theorem drawPixels_collision {ps : List (Fin 64 × Fin 32)} (hp : ps.Nodup) (fb : Framebuffer) :
    (drawPixels fb ps).2 = ps.any fun p => fb.pixel p.1 p.2 := by
  rw [drawPixels, (foldl_drawPixel hp fb false).2, Bool.false_or]

/-- The pixels a sprite touches: one for each 1 bit. -/
theorem mem_spritePixels {m : Memory} {base x0 y0 n : Nat} {x : Fin 64} {y : Fin 32} :
    (x, y) ∈ spritePixels m base x0 y0 n ↔
      ∃ r < n, ∃ c < 8, (m.read (base + r)).getLsbD (7 - c) = true ∧ x.val = (x0 + c) % 64 ∧ y.val = (y0 + r) % 32 := by
  simp only [spritePixels, List.mem_flatMap, List.mem_range, List.mem_map, List.mem_filter, Prod.mk.injEq, Fin.ext_iff,
    Fin.val_ofNat]
  constructor
  · rintro ⟨r, hr, c, ⟨hc, hb⟩, hx, hy⟩
    exact ⟨r, hr, c, hc, hb, hx.symm, hy.symm⟩
  · rintro ⟨r, hr, c, hc, hb, hx, hy⟩
    exact ⟨r, hr, c, ⟨hc, hb⟩, hx.symm, hy.symm⟩

/-- A sprite does not overlap itself (R172): 8 columns and at most 15 rows, on a screen of 64 and 32. -/
theorem spritePixels_nodup (m : Memory) (base x0 y0 : Nat) {n : Nat} (hn : n ≤ 15) :
    (spritePixels m base x0 y0 n).Nodup := by
  refine List.nodup_flatMap.mpr ⟨fun r _ => ?_, ?_⟩
  · refine List.Nodup.map_on (fun c hc d hd h => ?_) (List.nodup_range.filter _)
    simp only [List.mem_filter, List.mem_range, Prod.mk.injEq, Fin.ext_iff, Fin.val_ofNat] at hc hd h
    omega
  · refine (List.nodup_range (n := n)).imp_of_mem fun {r q} hr hq hne => ?_
    rw [Function.onFun, List.disjoint_left]
    simp only [List.mem_map, List.mem_range] at *
    rintro p ⟨c, -, rfl⟩ ⟨d, -, h⟩
    simp only [Prod.mk.injEq, Fin.ext_iff, Fin.val_ofNat] at h
    omega

end Sys2Proof.Machine
end

