-- ==== Sys2Proof/Laws/Memory.lean ====
section
/-! SUPPORT. What reading and writing memory do: a read after a write, and that every write keeps the canonical form. -/

namespace Sys2Proof.Machine

theorem fontTable_length : fontTable.length = 80 := by decide

/-- Above the font, an address that is not listed reads as 0x00 (R233). -/
theorem Memory.unlisted_above_font {a : Nat} (h : 80 ≤ a) : Memory.unlisted a = 0x00 := by
  rw [Memory.unlisted, List.getD_eq_default _ _ (by rw [fontTable_length]; exact h)]

/-- Every entry has an address above `a`. -/
abbrev Memory.above (m : Memory) (a : Nat) : Prop := ∀ p ∈ m, a < p.1

theorem Memory.read_of_above {m : Memory} {a : Nat} (h : m.above a) : m.read a = Memory.unlisted a := by
  induction m with
  | nil => rfl
  | cons p m ih =>
    have hp : a < p.1 := h p (by simp)
    rw [Memory.read, if_neg (by omega)]
    exact ih fun q hq => h q (by simp [hq])

theorem Memory.read_put_same {m : Memory} {a : Nat} (v : Byte) (h : m.above a) : (m.put a v).read a = v := by
  unfold Memory.put
  split
  · next hv => rw [Memory.read_of_above h, hv]
  · simp [Memory.read]

theorem Memory.read_put_other {m : Memory} {a c : Nat} (v : Byte) (h : c ≠ a) : (m.put a v).read c = m.read c := by
  unfold Memory.put
  split
  · rfl
  · simp [Memory.read, h]

theorem Memory.wf.tail {p : Host.Cell} {m : Memory} (h : Memory.wf (p :: m)) : m.wf :=
  ⟨(List.pairwise_cons.mp h.1).2, fun q hq => h.2 q (by simp [hq])⟩

theorem Memory.wf.head_lt {p : Host.Cell} {m : Memory} (h : Memory.wf (p :: m)) : m.above p.1 :=
  (List.pairwise_cons.mp h.1).1

/-- A write leaves every other address alone. -/
theorem Memory.read_write_other (m : Memory) {a c : Nat} (v : Byte) (h : c ≠ a) : (m.write a v).read c = m.read c := by
  induction m with
  | nil => exact Memory.read_put_other v h
  | cons p m ih =>
    obtain ⟨b, u⟩ := p
    rw [Memory.write]
    split
    · exact Memory.read_put_other v h
    · split
      · next hab => rw [Memory.read_put_other v h, Memory.read, if_neg (by omega)]
      · rw [Memory.read, Memory.read, ih]

/-- A write is read back at its address. -/
theorem Memory.read_write_same {m : Memory} (hm : m.wf) (a : Nat) (v : Byte) : (m.write a v).read a = v := by
  induction m with
  | nil => exact Memory.read_put_same v (by simp)
  | cons p m ih =>
    obtain ⟨b, u⟩ := p
    rw [Memory.write]
    split
    · next hab =>
      refine Memory.read_put_same v fun q hq => ?_
      rcases List.mem_cons.mp hq with rfl | hq
      · exact hab
      · exact hab.trans (hm.head_lt q hq)
    · split
      · next hab =>
        subst hab
        exact Memory.read_put_same v fun q hq => hm.head_lt q hq
      · next hab => rw [Memory.read, if_neg hab, ih hm.tail]

theorem Memory.put_wf {m : Memory} (hm : m.wf) {a : Nat} (v : Byte) (ha : a < 4096) (h : m.above a) :
    (m.put a v).wf := by
  unfold Memory.put
  split
  · exact hm
  · next hv =>
    refine ⟨List.pairwise_cons.mpr ⟨h, hm.1⟩, fun p hp => ?_⟩
    rcases List.mem_cons.mp hp with rfl | hp
    · exact ⟨ha, hv⟩
    · exact hm.2 p hp

theorem Memory.put_above {m : Memory} {a c : Nat} (v : Byte) (hc : c < a) (h : m.above c) : (m.put a v).above c := by
  unfold Memory.put
  split
  · exact h
  · intro p hp
    rcases List.mem_cons.mp hp with rfl | hp
    · exact hc
    · exact h p hp

theorem Memory.write_above {m : Memory} {a c : Nat} (v : Byte) (hc : c < a) (h : m.above c) : (m.write a v).above c := by
  induction m with
  | nil => exact Memory.put_above v hc h
  | cons p m ih =>
    obtain ⟨b, u⟩ := p
    have hm : Memory.above m c := fun q hq => h q (by simp [hq])
    rw [Memory.write]
    split
    · exact Memory.put_above v hc h
    · split
      · exact Memory.put_above v hc hm
      · intro q hq
        rcases List.mem_cons.mp hq with rfl | hq
        · exact h _ (by simp)
        · exact ih hm q hq

/-- A write inside memory keeps the canonical form. -/
theorem Memory.write_wf {m : Memory} (hm : m.wf) {a : Nat} (v : Byte) (ha : a < 4096) : (m.write a v).wf := by
  induction m with
  | nil => exact Memory.put_wf hm v ha (by simp)
  | cons p m ih =>
    obtain ⟨b, u⟩ := p
    rw [Memory.write]
    split
    · next hab =>
      refine Memory.put_wf hm v ha fun q hq => ?_
      rcases List.mem_cons.mp hq with rfl | hq
      · exact hab
      · exact hab.trans (hm.head_lt q hq)
    · split
      · next hab =>
        subst hab
        exact Memory.put_wf hm.tail v ha fun q hq => hm.head_lt q hq
      · next h1 h2 =>
        have hw := ih hm.tail
        refine ⟨List.pairwise_cons.mpr ⟨Memory.write_above v (by omega) hm.head_lt, hw.1⟩, fun q hq => ?_⟩
        rcases List.mem_cons.mp hq with rfl | hq
        · exact hm.2 _ (by simp)
        · exact hw.2 q hq

/-- A block inside memory keeps the canonical form. -/
theorem Memory.writeBlock_wf {m : Memory} (hm : m.wf) {a : Nat} {bs : List Byte} (h : a + bs.length ≤ 4096) :
    (m.writeBlock a bs).wf := by
  induction bs generalizing m a with
  | nil => exact hm
  | cons b bs ih =>
    rw [List.length_cons] at h
    exact ih (Memory.write_wf hm b (by omega)) (by omega)

/-- A block leaves every address outside it alone. -/
theorem Memory.read_writeBlock_outside (m : Memory) {a c : Nat} {bs : List Byte} (h : c < a ∨ a + bs.length ≤ c) :
    (m.writeBlock a bs).read c = m.read c := by
  induction bs generalizing m a with
  | nil => rfl
  | cons b bs ih =>
    rw [List.length_cons] at h
    rw [Memory.writeBlock, ih _ (by omega), Memory.read_write_other _ _ (by omega)]

/-- A block is read back byte for byte. -/
theorem Memory.read_writeBlock_inside {m : Memory} (hm : m.wf) {a : Nat} {bs : List Byte} (h : a + bs.length ≤ 4096)
    (k : Nat) (hk : k < bs.length) : (m.writeBlock a bs).read (a + k) = bs[k] := by
  induction bs generalizing m a k with
  | nil => simp at hk
  | cons b bs ih =>
    rw [List.length_cons] at h
    rw [Memory.writeBlock]
    cases k with
    | zero =>
      rw [Memory.read_writeBlock_outside _ (Or.inl (by omega))]
      simpa using Memory.read_write_same hm a b
    | succ k =>
      rw [List.length_cons] at hk
      have := ih (Memory.write_wf hm (a := a) b (by omega)) (a := a + 1) (by omega) k (by omega)
      rw [show a + (k + 1) = a + 1 + k by omega, this]
      simp

/-- In canonical form, memories that read alike are the same list. -/
theorem Memory.ext_read {m m' : Memory} (hm : m.wf) (hm' : m'.wf) (h : ∀ a, m.read a = m'.read a) : m = m' := by
  induction m generalizing m' with
  | nil =>
    cases m' with
    | nil => rfl
    | cons q m' =>
      have := h q.1
      rw [Memory.read, Memory.read, if_pos rfl] at this
      exact absurd this.symm (hm'.2 q (by simp)).2
  | cons p m ih =>
    cases m' with
    | nil =>
      have := h p.1
      rw [Memory.read, Memory.read, if_pos rfl] at this
      exact absurd this (hm.2 p (by simp)).2
    | cons q m' =>
      have hp : Memory.read (p :: m) p.1 = p.2 := if_pos rfl
      have hq : Memory.read (q :: m') q.1 = q.2 := if_pos rfl
      have key : p.1 = q.1 := by
        rcases Nat.lt_trichotomy p.1 q.1 with hlt | heq | hlt
        · have hu : Memory.read (q :: m') p.1 = Memory.unlisted p.1 := by
            refine Memory.read_of_above fun r hr => ?_
            rcases List.mem_cons.mp hr with rfl | hr
            · exact hlt
            · exact hlt.trans (hm'.head_lt r hr)
          exact absurd (hp.symm.trans ((h p.1).trans hu)) (hm.2 p (by simp)).2
        · exact heq
        · have hu : Memory.read (p :: m) q.1 = Memory.unlisted q.1 := by
            refine Memory.read_of_above fun r hr => ?_
            rcases List.mem_cons.mp hr with rfl | hr
            · exact hlt
            · exact hlt.trans (hm.head_lt r hr)
          exact absurd (hq.symm.trans ((h q.1).symm.trans hu)) (hm'.2 q (by simp)).2
      have hv : p.2 = q.2 := by rw [← hp, ← hq, ← key, h]
      have htail : m = m' := by
        refine ih hm.tail hm'.tail fun a => ?_
        by_cases ha : a = p.1
        · subst ha
          rw [Memory.read_of_above hm.head_lt, key, Memory.read_of_above hm'.head_lt]
        · have := h a
          rwa [Memory.read, Memory.read, if_neg ha, if_neg (key ▸ ha)] at this
      rw [htail, show p = q from Prod.ext key hv]

end Sys2Proof.Machine
end

