-- ==== Sys2Proof/Laws/State.lean ====
section
/-! SUPPORT. One lemma for each field of each update of the state, so that no later proof unfolds a record update. -/

namespace Sys2Proof.Machine

section Fields

variable (s : State)

@[simp] theorem State.setV_pc (k : Reg) (b : Byte) : (s.setV k b).pc = s.pc := rfl
@[simp] theorem State.setV_i (k : Reg) (b : Byte) : (s.setV k b).i = s.i := rfl
@[simp] theorem State.setV_stack (k : Reg) (b : Byte) : (s.setV k b).stack = s.stack := rfl
@[simp] theorem State.setV_sp (k : Reg) (b : Byte) : (s.setV k b).sp = s.sp := rfl
@[simp] theorem State.setV_dt (k : Reg) (b : Byte) : (s.setV k b).dt = s.dt := rfl
@[simp] theorem State.setV_st (k : Reg) (b : Byte) : (s.setV k b).st = s.st := rfl
@[simp] theorem State.setV_fb (k : Reg) (b : Byte) : (s.setV k b).fb = s.fb := rfl
@[simp] theorem State.setV_draw (k : Reg) (b : Byte) : (s.setV k b).draw = s.draw := rfl
@[simp] theorem State.setV_mem (k : Reg) (b : Byte) : (s.setV k b).mem = s.mem := rfl
@[simp] theorem State.setV_keys (k : Reg) (b : Byte) : (s.setV k b).keys = s.keys := rfl
@[simp] theorem State.setV_tone (k : Reg) (b : Byte) : (s.setV k b).tone = s.tone := rfl
@[simp] theorem State.setV_rndIndex (k : Reg) (b : Byte) : (s.setV k b).rndIndex = s.rndIndex := rfl

@[simp] theorem State.setVThenFlag_pc (x : Reg) (r f : Byte) : (s.setVThenFlag x r f).pc = s.pc := rfl
@[simp] theorem State.setVThenFlag_i (x : Reg) (r f : Byte) : (s.setVThenFlag x r f).i = s.i := rfl
@[simp] theorem State.setVThenFlag_stack (x : Reg) (r f : Byte) : (s.setVThenFlag x r f).stack = s.stack := rfl
@[simp] theorem State.setVThenFlag_sp (x : Reg) (r f : Byte) : (s.setVThenFlag x r f).sp = s.sp := rfl
@[simp] theorem State.setVThenFlag_dt (x : Reg) (r f : Byte) : (s.setVThenFlag x r f).dt = s.dt := rfl
@[simp] theorem State.setVThenFlag_st (x : Reg) (r f : Byte) : (s.setVThenFlag x r f).st = s.st := rfl
@[simp] theorem State.setVThenFlag_fb (x : Reg) (r f : Byte) : (s.setVThenFlag x r f).fb = s.fb := rfl
@[simp] theorem State.setVThenFlag_draw (x : Reg) (r f : Byte) : (s.setVThenFlag x r f).draw = s.draw := rfl
@[simp] theorem State.setVThenFlag_mem (x : Reg) (r f : Byte) : (s.setVThenFlag x r f).mem = s.mem := rfl
@[simp] theorem State.setVThenFlag_keys (x : Reg) (r f : Byte) : (s.setVThenFlag x r f).keys = s.keys := rfl
@[simp] theorem State.setVThenFlag_tone (x : Reg) (r f : Byte) : (s.setVThenFlag x r f).tone = s.tone := rfl
@[simp] theorem State.setVThenFlag_rndIndex (x : Reg) (r f : Byte) : (s.setVThenFlag x r f).rndIndex = s.rndIndex := rfl

@[simp] theorem State.advance_v : (s.advance).v = s.v := rfl
@[simp] theorem State.advance_pc : (s.advance).pc = s.pc + 2 := rfl
@[simp] theorem State.advance_i : (s.advance).i = s.i := rfl
@[simp] theorem State.advance_stack : (s.advance).stack = s.stack := rfl
@[simp] theorem State.advance_sp : (s.advance).sp = s.sp := rfl
@[simp] theorem State.advance_dt : (s.advance).dt = s.dt := rfl
@[simp] theorem State.advance_st : (s.advance).st = s.st := rfl
@[simp] theorem State.advance_fb : (s.advance).fb = s.fb := rfl
@[simp] theorem State.advance_draw : (s.advance).draw = s.draw := rfl
@[simp] theorem State.advance_mem : (s.advance).mem = s.mem := rfl
@[simp] theorem State.advance_keys : (s.advance).keys = s.keys := rfl
@[simp] theorem State.advance_tone : (s.advance).tone = s.tone := rfl
@[simp] theorem State.advance_rndIndex : (s.advance).rndIndex = s.rndIndex := rfl
@[simp] theorem State.advance_getV (k : Reg) : (s.advance).getV k = s.getV k := rfl

@[simp] theorem State.skipIf_v (b : Bool) : (s.skipIf b).v = s.v := rfl
@[simp] theorem State.skipIf_pc (b : Bool) : (s.skipIf b).pc = s.pc + if b then 4 else 2 := rfl
@[simp] theorem State.skipIf_i (b : Bool) : (s.skipIf b).i = s.i := rfl
@[simp] theorem State.skipIf_stack (b : Bool) : (s.skipIf b).stack = s.stack := rfl
@[simp] theorem State.skipIf_sp (b : Bool) : (s.skipIf b).sp = s.sp := rfl
@[simp] theorem State.skipIf_dt (b : Bool) : (s.skipIf b).dt = s.dt := rfl
@[simp] theorem State.skipIf_st (b : Bool) : (s.skipIf b).st = s.st := rfl
@[simp] theorem State.skipIf_fb (b : Bool) : (s.skipIf b).fb = s.fb := rfl
@[simp] theorem State.skipIf_draw (b : Bool) : (s.skipIf b).draw = s.draw := rfl
@[simp] theorem State.skipIf_mem (b : Bool) : (s.skipIf b).mem = s.mem := rfl
@[simp] theorem State.skipIf_keys (b : Bool) : (s.skipIf b).keys = s.keys := rfl
@[simp] theorem State.skipIf_tone (b : Bool) : (s.skipIf b).tone = s.tone := rfl
@[simp] theorem State.skipIf_rndIndex (b : Bool) : (s.skipIf b).rndIndex = s.rndIndex := rfl
@[simp] theorem State.skipIf_getV (b : Bool) (k : Reg) : (s.skipIf b).getV k = s.getV k := rfl

@[simp] theorem State.jump_v (a : Word) : (s.jump a).v = s.v := rfl
@[simp] theorem State.jump_pc (a : Word) : (s.jump a).pc = a := rfl
@[simp] theorem State.jump_i (a : Word) : (s.jump a).i = s.i := rfl
@[simp] theorem State.jump_stack (a : Word) : (s.jump a).stack = s.stack := rfl
@[simp] theorem State.jump_sp (a : Word) : (s.jump a).sp = s.sp := rfl
@[simp] theorem State.jump_dt (a : Word) : (s.jump a).dt = s.dt := rfl
@[simp] theorem State.jump_st (a : Word) : (s.jump a).st = s.st := rfl
@[simp] theorem State.jump_fb (a : Word) : (s.jump a).fb = s.fb := rfl
@[simp] theorem State.jump_draw (a : Word) : (s.jump a).draw = s.draw := rfl
@[simp] theorem State.jump_mem (a : Word) : (s.jump a).mem = s.mem := rfl
@[simp] theorem State.jump_keys (a : Word) : (s.jump a).keys = s.keys := rfl
@[simp] theorem State.jump_tone (a : Word) : (s.jump a).tone = s.tone := rfl
@[simp] theorem State.jump_rndIndex (a : Word) : (s.jump a).rndIndex = s.rndIndex := rfl
@[simp] theorem State.jump_getV (a : Word) (k : Reg) : (s.jump a).getV k = s.getV k := rfl

@[simp] theorem State.setI_v (a : Word) : (s.setI a).v = s.v := rfl
@[simp] theorem State.setI_pc (a : Word) : (s.setI a).pc = s.pc := rfl
@[simp] theorem State.setI_i (a : Word) : (s.setI a).i = a := rfl
@[simp] theorem State.setI_stack (a : Word) : (s.setI a).stack = s.stack := rfl
@[simp] theorem State.setI_sp (a : Word) : (s.setI a).sp = s.sp := rfl
@[simp] theorem State.setI_dt (a : Word) : (s.setI a).dt = s.dt := rfl
@[simp] theorem State.setI_st (a : Word) : (s.setI a).st = s.st := rfl
@[simp] theorem State.setI_fb (a : Word) : (s.setI a).fb = s.fb := rfl
@[simp] theorem State.setI_draw (a : Word) : (s.setI a).draw = s.draw := rfl
@[simp] theorem State.setI_mem (a : Word) : (s.setI a).mem = s.mem := rfl
@[simp] theorem State.setI_keys (a : Word) : (s.setI a).keys = s.keys := rfl
@[simp] theorem State.setI_tone (a : Word) : (s.setI a).tone = s.tone := rfl
@[simp] theorem State.setI_rndIndex (a : Word) : (s.setI a).rndIndex = s.rndIndex := rfl
@[simp] theorem State.setI_getV (a : Word) (k : Reg) : (s.setI a).getV k = s.getV k := rfl

@[simp] theorem State.setDt_v (b : Byte) : (s.setDt b).v = s.v := rfl
@[simp] theorem State.setDt_pc (b : Byte) : (s.setDt b).pc = s.pc := rfl
@[simp] theorem State.setDt_i (b : Byte) : (s.setDt b).i = s.i := rfl
@[simp] theorem State.setDt_stack (b : Byte) : (s.setDt b).stack = s.stack := rfl
@[simp] theorem State.setDt_sp (b : Byte) : (s.setDt b).sp = s.sp := rfl
@[simp] theorem State.setDt_dt (b : Byte) : (s.setDt b).dt = b := rfl
@[simp] theorem State.setDt_st (b : Byte) : (s.setDt b).st = s.st := rfl
@[simp] theorem State.setDt_fb (b : Byte) : (s.setDt b).fb = s.fb := rfl
@[simp] theorem State.setDt_draw (b : Byte) : (s.setDt b).draw = s.draw := rfl
@[simp] theorem State.setDt_mem (b : Byte) : (s.setDt b).mem = s.mem := rfl
@[simp] theorem State.setDt_keys (b : Byte) : (s.setDt b).keys = s.keys := rfl
@[simp] theorem State.setDt_tone (b : Byte) : (s.setDt b).tone = s.tone := rfl
@[simp] theorem State.setDt_rndIndex (b : Byte) : (s.setDt b).rndIndex = s.rndIndex := rfl
@[simp] theorem State.setDt_getV (b : Byte) (k : Reg) : (s.setDt b).getV k = s.getV k := rfl

@[simp] theorem State.setSt_v (b : Byte) : (s.setSt b).v = s.v := rfl
@[simp] theorem State.setSt_pc (b : Byte) : (s.setSt b).pc = s.pc := rfl
@[simp] theorem State.setSt_i (b : Byte) : (s.setSt b).i = s.i := rfl
@[simp] theorem State.setSt_stack (b : Byte) : (s.setSt b).stack = s.stack := rfl
@[simp] theorem State.setSt_sp (b : Byte) : (s.setSt b).sp = s.sp := rfl
@[simp] theorem State.setSt_dt (b : Byte) : (s.setSt b).dt = s.dt := rfl
@[simp] theorem State.setSt_st (b : Byte) : (s.setSt b).st = b := rfl
@[simp] theorem State.setSt_fb (b : Byte) : (s.setSt b).fb = s.fb := rfl
@[simp] theorem State.setSt_draw (b : Byte) : (s.setSt b).draw = s.draw := rfl
@[simp] theorem State.setSt_mem (b : Byte) : (s.setSt b).mem = s.mem := rfl
@[simp] theorem State.setSt_keys (b : Byte) : (s.setSt b).keys = s.keys := rfl
@[simp] theorem State.setSt_tone (b : Byte) : (s.setSt b).tone = s.tone := rfl
@[simp] theorem State.setSt_rndIndex (b : Byte) : (s.setSt b).rndIndex = s.rndIndex := rfl
@[simp] theorem State.setSt_getV (b : Byte) (k : Reg) : (s.setSt b).getV k = s.getV k := rfl

@[simp] theorem State.setMem_v (m : Memory) : (s.setMem m).v = s.v := rfl
@[simp] theorem State.setMem_pc (m : Memory) : (s.setMem m).pc = s.pc := rfl
@[simp] theorem State.setMem_i (m : Memory) : (s.setMem m).i = s.i := rfl
@[simp] theorem State.setMem_stack (m : Memory) : (s.setMem m).stack = s.stack := rfl
@[simp] theorem State.setMem_sp (m : Memory) : (s.setMem m).sp = s.sp := rfl
@[simp] theorem State.setMem_dt (m : Memory) : (s.setMem m).dt = s.dt := rfl
@[simp] theorem State.setMem_st (m : Memory) : (s.setMem m).st = s.st := rfl
@[simp] theorem State.setMem_fb (m : Memory) : (s.setMem m).fb = s.fb := rfl
@[simp] theorem State.setMem_draw (m : Memory) : (s.setMem m).draw = s.draw := rfl
@[simp] theorem State.setMem_mem (m : Memory) : (s.setMem m).mem = m := rfl
@[simp] theorem State.setMem_keys (m : Memory) : (s.setMem m).keys = s.keys := rfl
@[simp] theorem State.setMem_tone (m : Memory) : (s.setMem m).tone = s.tone := rfl
@[simp] theorem State.setMem_rndIndex (m : Memory) : (s.setMem m).rndIndex = s.rndIndex := rfl
@[simp] theorem State.setMem_getV (m : Memory) (k : Reg) : (s.setMem m).getV k = s.getV k := rfl

@[simp] theorem State.setRegs_v (r : Vector Byte 16) : (s.setRegs r).v = r := rfl
@[simp] theorem State.setRegs_pc (r : Vector Byte 16) : (s.setRegs r).pc = s.pc := rfl
@[simp] theorem State.setRegs_i (r : Vector Byte 16) : (s.setRegs r).i = s.i := rfl
@[simp] theorem State.setRegs_stack (r : Vector Byte 16) : (s.setRegs r).stack = s.stack := rfl
@[simp] theorem State.setRegs_sp (r : Vector Byte 16) : (s.setRegs r).sp = s.sp := rfl
@[simp] theorem State.setRegs_dt (r : Vector Byte 16) : (s.setRegs r).dt = s.dt := rfl
@[simp] theorem State.setRegs_st (r : Vector Byte 16) : (s.setRegs r).st = s.st := rfl
@[simp] theorem State.setRegs_fb (r : Vector Byte 16) : (s.setRegs r).fb = s.fb := rfl
@[simp] theorem State.setRegs_draw (r : Vector Byte 16) : (s.setRegs r).draw = s.draw := rfl
@[simp] theorem State.setRegs_mem (r : Vector Byte 16) : (s.setRegs r).mem = s.mem := rfl
@[simp] theorem State.setRegs_keys (r : Vector Byte 16) : (s.setRegs r).keys = s.keys := rfl
@[simp] theorem State.setRegs_tone (r : Vector Byte 16) : (s.setRegs r).tone = s.tone := rfl
@[simp] theorem State.setRegs_rndIndex (r : Vector Byte 16) : (s.setRegs r).rndIndex = s.rndIndex := rfl

@[simp] theorem State.setScreen_v (b : Framebuffer) : (s.setScreen b).v = s.v := rfl
@[simp] theorem State.setScreen_pc (b : Framebuffer) : (s.setScreen b).pc = s.pc := rfl
@[simp] theorem State.setScreen_i (b : Framebuffer) : (s.setScreen b).i = s.i := rfl
@[simp] theorem State.setScreen_stack (b : Framebuffer) : (s.setScreen b).stack = s.stack := rfl
@[simp] theorem State.setScreen_sp (b : Framebuffer) : (s.setScreen b).sp = s.sp := rfl
@[simp] theorem State.setScreen_dt (b : Framebuffer) : (s.setScreen b).dt = s.dt := rfl
@[simp] theorem State.setScreen_st (b : Framebuffer) : (s.setScreen b).st = s.st := rfl
@[simp] theorem State.setScreen_fb (b : Framebuffer) : (s.setScreen b).fb = b := rfl
@[simp] theorem State.setScreen_draw (b : Framebuffer) : (s.setScreen b).draw = true := rfl
@[simp] theorem State.setScreen_mem (b : Framebuffer) : (s.setScreen b).mem = s.mem := rfl
@[simp] theorem State.setScreen_keys (b : Framebuffer) : (s.setScreen b).keys = s.keys := rfl
@[simp] theorem State.setScreen_tone (b : Framebuffer) : (s.setScreen b).tone = s.tone := rfl
@[simp] theorem State.setScreen_rndIndex (b : Framebuffer) : (s.setScreen b).rndIndex = s.rndIndex := rfl
@[simp] theorem State.setScreen_getV (b : Framebuffer) (k : Reg) : (s.setScreen b).getV k = s.getV k := rfl

@[simp] theorem State.countDraw_v : (s.countDraw).v = s.v := rfl
@[simp] theorem State.countDraw_pc : (s.countDraw).pc = s.pc := rfl
@[simp] theorem State.countDraw_i : (s.countDraw).i = s.i := rfl
@[simp] theorem State.countDraw_stack : (s.countDraw).stack = s.stack := rfl
@[simp] theorem State.countDraw_sp : (s.countDraw).sp = s.sp := rfl
@[simp] theorem State.countDraw_dt : (s.countDraw).dt = s.dt := rfl
@[simp] theorem State.countDraw_st : (s.countDraw).st = s.st := rfl
@[simp] theorem State.countDraw_fb : (s.countDraw).fb = s.fb := rfl
@[simp] theorem State.countDraw_draw : (s.countDraw).draw = s.draw := rfl
@[simp] theorem State.countDraw_mem : (s.countDraw).mem = s.mem := rfl
@[simp] theorem State.countDraw_keys : (s.countDraw).keys = s.keys := rfl
@[simp] theorem State.countDraw_tone : (s.countDraw).tone = s.tone := rfl
@[simp] theorem State.countDraw_rndIndex : (s.countDraw).rndIndex = s.rndIndex + 1 := rfl
@[simp] theorem State.countDraw_getV (k : Reg) : (s.countDraw).getV k = s.getV k := rfl

@[simp] theorem tick_v : (tick s).v = s.v := rfl
@[simp] theorem tick_pc : (tick s).pc = s.pc := rfl
@[simp] theorem tick_i : (tick s).i = s.i := rfl
@[simp] theorem tick_stack : (tick s).stack = s.stack := rfl
@[simp] theorem tick_sp : (tick s).sp = s.sp := rfl
@[simp] theorem tick_dt : (tick s).dt = countDown s.dt := rfl
@[simp] theorem tick_st : (tick s).st = countDown s.st := rfl
@[simp] theorem tick_fb : (tick s).fb = s.fb := rfl
@[simp] theorem tick_draw : (tick s).draw = s.draw := rfl
@[simp] theorem tick_mem : (tick s).mem = s.mem := rfl
@[simp] theorem tick_keys : (tick s).keys = s.keys := rfl
@[simp] theorem tick_tone : (tick s).tone = (s.st == 1) := rfl
@[simp] theorem tick_rndIndex : (tick s).rndIndex = s.rndIndex := rfl
@[simp] theorem tick_getV (k : Reg) : (tick s).getV k = s.getV k := rfl

end Fields

section Registers

variable {s : State}

/-- States with one register file have the same registers. -/
theorem State.getV_congr {t : State} (h : t.v = s.v) (k : Reg) : t.getV k = s.getV k := by
  simp only [State.getV, h]

/-- A register after one register is written. -/
theorem State.setV_getV (x k : Reg) (b : Byte) : (s.setV x b).getV k = if k = x then b else s.getV k := by
  simp only [State.getV, State.setV, Fin.getElem_fin, Vector.getElem_set, Fin.ext_iff, eq_comm]

theorem State.setRegs_getV (r : Vector Byte 16) (k : Reg) : (s.setRegs r).getV k = r[k] := rfl

@[simp] theorem State.setV_getV_same (x : Reg) (b : Byte) : (s.setV x b).getV x = b := by simp [State.setV_getV]

theorem State.setV_getV_other {x k : Reg} (b : Byte) (h : k ≠ x) : (s.setV x b).getV k = s.getV k := by
  simp [State.setV_getV, h]

/-- A register after a result and then the flag are written (R95): the flag wins in VF. -/
theorem State.setVThenFlag_getV (x k : Reg) (r f : Byte) :
    (s.setVThenFlag x r f).getV k = if k = 0xF then f else if k = x then r else s.getV k := by
  simp only [State.setVThenFlag, State.setV_getV]

end Registers

/-- A timer after the tick, as a number: one less, and never below zero. -/
theorem countDown_toNat (t : Byte) : (countDown t).toNat = t.toNat - 1 := by
  unfold countDown
  split
  · next h => simp [h]
  · next h =>
    have : t.toNat ≠ 0 := fun h0 => h (BitVec.eq_of_toNat_eq (by simpa using h0))
    bv_omega

end Sys2Proof.Machine
end

