-- ==== Sys2Proof/Laws/Operands.lean ====
section
/-! SUPPORT. What the operations of Machine/Operands.lean and Machine/Flags.lean answer. -/

namespace Sys2Proof.Machine

theorem flagByte_eq_one_iff {b : Bool} : flagByte b = 1 ↔ b = true := by
  cases b <;> simp [flagByte]

theorem flagByte_toNat (b : Bool) : (flagByte b).toNat = if b then 1 else 0 := by
  cases b <;> rfl

/-- The shifted operand is one of the two registers, whatever `SHIFT_SOURCE` is. -/
theorem shiftOperand_eq (x y : Reg) (s : State) :
    shiftOperand x y s = if Config.shiftSource = .vx then s.getV x else s.getV y := by
  unfold shiftOperand shiftOperandOf
  cases Config.shiftSource <;> simp

@[simp] theorem shiftOperand_self (x : Reg) (s : State) : shiftOperand x x s = s.getV x := by
  simp [shiftOperand_eq]

@[simp] theorem decimalDigits_length (a : Byte) : (decimalDigits a).length = 3 := rfl

/-- The digits are the decimal digits of the byte. -/
theorem decimalDigits_value (a : Byte) :
    (decimalDigits a).map BitVec.toNat = [a.toNat / 100, a.toNat / 10 % 10, a.toNat % 10] := by
  have := a.isLt
  simp only [decimalDigits, List.map_cons, List.map_nil, BitVec.toNat_ofNat]
  have h1 : a.toNat / 100 < 256 := by omega
  have h2 : a.toNat / 10 % 10 < 256 := by omega
  have h3 : a.toNat % 10 < 256 := by omega
  rw [Nat.mod_eq_of_lt h1, Nat.mod_eq_of_lt h2, Nat.mod_eq_of_lt h3]

@[simp] theorem registerBlock_length (x : Reg) (s : State) : (registerBlock x s).length = x.val + 1 := by
  simp [registerBlock]

theorem registerBlock_getElem (x k : Reg) (s : State) (h : k.val < (registerBlock x s).length) :
    (registerBlock x s)[k.val] = s.getV k := by
  simp [registerBlock, State.getV]

theorem loadedRegisters_getElem (x k : Reg) (s : State) :
    (loadedRegisters x s)[k] = if k ≤ x then s.mem.read (s.i.toNat + k.val) else s.getV k := by
  simp [loadedRegisters]

theorem keyOf_ok {x : Reg} {s : State} {k : Fin 16} (h : (s.getV x).toNat = k.val) : keyOf x s = .ok s.keys[k] := by
  simp [keyOf, h]

theorem keyOf_fault {x : Reg} {s : State} (h : 15 < (s.getV x).toNat) :
    keyOf x s = .error (.outOfBounds (s.getV x).toNat) := by
  rw [keyOf, dif_neg (by omega)]

theorem lowestPressed_eq_none_iff {s : State} : lowestPressed s = none ↔ ∀ k : Fin 16, s.keys[k] = false := by
  simp [lowestPressed, List.find?_eq_none]

/-- The key found is pressed, and no key below it is. -/
theorem lowestPressed_eq_some_iff {s : State} {k : Fin 16} :
    lowestPressed s = some k ↔ s.keys[k] = true ∧ ∀ j : Fin 16, j < k → s.keys[j] = false := by
  rw [lowestPressed, List.find?_eq_some_iff_getElem]
  constructor
  · rintro ⟨hk, n, hn, hnk, hlt⟩
    refine ⟨hk, fun j hj => ?_⟩
    have := hlt j.val (by simp only [← hnk, List.getElem_finRange] at hj; exact hj)
    simpa using this
  · rintro ⟨hk, hlt⟩
    refine ⟨hk, k.val, by simp, by simp, fun j hj => ?_⟩
    have := hlt ⟨j, by omega⟩ hj
    simpa using this

end Sys2Proof.Machine
end

