-- ==== Sys2Proof/Laws/Ops.lean ====
section
/-! SUPPORT. What each shared operation of Machine/Ops.lean can do, said once, and what a step is made of. -/

namespace Sys2Proof.Machine

/-! ## The bound check -/

/-- A transfer of no byte, or of bytes that are all in memory, goes on. -/
theorem checkBytes_ok {base n : Nat} (ok : Result) (h : n = 0 ∨ base + n ≤ 4096) : checkBytes base n ok = ok :=
  if_neg (by omega)

/-- A transfer that leaves memory raises the condition with its highest address. -/
theorem checkBytes_fault {base n : Nat} (ok : Result) (hn : 0 < n) (h : 4096 < base + n) :
    checkBytes base n ok = .fault (.outOfBounds (base + n - 1)) :=
  if_pos (by omega)

/-- Where a checked transfer goes on, all of its bytes are in memory. -/
theorem checkBytes_next {base n : Nat} {ok : Result} {t : State} (h : checkBytes base n ok = .next t) :
    (n = 0 ∨ base + n ≤ 4096) ∧ ok = .next t := by
  unfold checkBytes at h
  split at h
  · simp [raise] at h
  · exact ⟨by omega, h⟩

/-- Changing the next state of a checked transfer is changing it behind the check. -/
theorem mapNext_checkBytes (f : State → State) (base n : Nat) (ok : Result) :
    mapNext f (checkBytes base n ok) = checkBytes base n (mapNext f ok) := by
  unfold checkBytes
  split <;> rfl

/-! ## Fetch and decode -/

theorem fetchWord_ok {s : State} (h : s.pc.toNat ≤ 0xFFE) :
    fetchWord s = .ok (wordOfBytes (s.mem.read s.pc.toNat) (s.mem.read (s.pc.toNat + 1))) :=
  if_neg (by omega)

theorem fetchWord_fault {s : State} (h : 0xFFE < s.pc.toNat) : fetchWord s = .error (.outOfBounds s.pc.toNat) :=
  if_pos h

/-- An instruction is fetched exactly where both of its bytes are in memory and decode to it. -/
theorem fetchDecode_ok_iff {s : State} {i : Instr} :
    fetchDecode s = .ok i ↔
      s.pc.toNat ≤ 0xFFE ∧
        decodeWord (wordOfBytes (s.mem.read s.pc.toNat) (s.mem.read (s.pc.toNat + 1))) = some i := by
  unfold fetchDecode
  by_cases h : 0xFFE < s.pc.toNat
  · simp [fetchWord_fault h]
    omega
  · rw [fetchWord_ok (by omega)]
    split <;> rename_i hw
    · cases hw
    · cases hw
      split <;> rename_i hd <;> simp [hd]
      omega

/-- Storing two bytes at `PC` is fetching their word. -/
theorem fetchWord_writeBlock {s : State} (hm : s.mem.wf) (h : s.pc.toNat ≤ 0xFFE) (hi lo : Byte) :
    fetchWord { s with mem := s.mem.writeBlock s.pc.toNat [hi, lo] } = .ok (wordOfBytes hi lo) := by
  have hl : s.pc.toNat + [hi, lo].length ≤ 4096 := by simp; omega
  have h0 := Memory.read_writeBlock_inside hm hl 0 (by simp)
  have h1 := Memory.read_writeBlock_inside hm hl 1 (by simp)
  simp only [Nat.add_zero] at h0
  rw [fetchWord, if_neg (by simp only; omega)]
  simp [h0, h1]

/-! ## The end of a step -/

theorem endStep_next_iff {r : Result} {t : State} : endStep r = .next t ↔ ∃ u, r = .next u ∧ t = tick u := by
  cases r <;> simp [endStep, eq_comm]

/-- A step that completes is fetch and decode, the execute phase, and the tick. -/
theorem step_next_iff {s t : State} :
    step s = .next t ↔ ∃ i u, fetchDecode s = .ok i ∧ exec i s = .next u ∧ t = tick u := by
  unfold step
  split <;> rename_i h
  · simp [h, raise]
  · simp [h, endStep_next_iff]

end Sys2Proof.Machine
end

