-- ==== Sys2Proof/Laws/PerInstr.lean ====
section
/-! SUPPORT. Laws about every instruction as syntax, one lemma for each constructor. -/

namespace Sys2Proof.Laws

/-- The encoder puts an instruction in its own row of the opcode map (R76): `w &&& mask = value`. -/
def EncodesInRow.Statement (i : Instr) : Prop := encode i &&& i.row.mask = i.row.value

theorem EncodesInRow.cls : EncodesInRow.Statement (.cls) := rfl
theorem EncodesInRow.ret : EncodesInRow.Statement (.ret) := rfl
theorem EncodesInRow.jp (nnn : BitVec 12) : EncodesInRow.Statement (.jp nnn) :=
  (and_F000_iff _ 1).mpr (opField_formatNNN ..)
theorem EncodesInRow.call (nnn : BitVec 12) : EncodesInRow.Statement (.call nnn) :=
  (and_F000_iff _ 2).mpr (opField_formatNNN ..)
theorem EncodesInRow.seImm (x : Reg) (nn : Byte) : EncodesInRow.Statement (.seImm x nn) :=
  (and_F000_iff _ 3).mpr (opField_formatXNN ..)
theorem EncodesInRow.sneImm (x : Reg) (nn : Byte) : EncodesInRow.Statement (.sneImm x nn) :=
  (and_F000_iff _ 4).mpr (opField_formatXNN ..)
theorem EncodesInRow.seReg (x y : Reg) : EncodesInRow.Statement (.seReg x y) :=
  (and_F00F_iff _ 5 0).mpr ⟨opField_formatXYN .., nField_formatXYN ..⟩
theorem EncodesInRow.ldImm (x : Reg) (nn : Byte) : EncodesInRow.Statement (.ldImm x nn) :=
  (and_F000_iff _ 6).mpr (opField_formatXNN ..)
theorem EncodesInRow.addImm (x : Reg) (nn : Byte) : EncodesInRow.Statement (.addImm x nn) :=
  (and_F000_iff _ 7).mpr (opField_formatXNN ..)
theorem EncodesInRow.ldReg (x y : Reg) : EncodesInRow.Statement (.ldReg x y) :=
  (and_F00F_iff _ 8 0).mpr ⟨opField_formatXYN .., nField_formatXYN ..⟩
theorem EncodesInRow.orReg (x y : Reg) : EncodesInRow.Statement (.orReg x y) :=
  (and_F00F_iff _ 8 1).mpr ⟨opField_formatXYN .., nField_formatXYN ..⟩
theorem EncodesInRow.andReg (x y : Reg) : EncodesInRow.Statement (.andReg x y) :=
  (and_F00F_iff _ 8 2).mpr ⟨opField_formatXYN .., nField_formatXYN ..⟩
theorem EncodesInRow.xorReg (x y : Reg) : EncodesInRow.Statement (.xorReg x y) :=
  (and_F00F_iff _ 8 3).mpr ⟨opField_formatXYN .., nField_formatXYN ..⟩
theorem EncodesInRow.addReg (x y : Reg) : EncodesInRow.Statement (.addReg x y) :=
  (and_F00F_iff _ 8 4).mpr ⟨opField_formatXYN .., nField_formatXYN ..⟩
theorem EncodesInRow.subReg (x y : Reg) : EncodesInRow.Statement (.subReg x y) :=
  (and_F00F_iff _ 8 5).mpr ⟨opField_formatXYN .., nField_formatXYN ..⟩
theorem EncodesInRow.shr (x y : Reg) : EncodesInRow.Statement (.shr x y) :=
  (and_F00F_iff _ 8 6).mpr ⟨opField_formatXYN .., nField_formatXYN ..⟩
theorem EncodesInRow.subnReg (x y : Reg) : EncodesInRow.Statement (.subnReg x y) :=
  (and_F00F_iff _ 8 7).mpr ⟨opField_formatXYN .., nField_formatXYN ..⟩
theorem EncodesInRow.shl (x y : Reg) : EncodesInRow.Statement (.shl x y) :=
  (and_F00F_iff _ 8 0xE).mpr ⟨opField_formatXYN .., nField_formatXYN ..⟩
theorem EncodesInRow.sneReg (x y : Reg) : EncodesInRow.Statement (.sneReg x y) :=
  (and_F00F_iff _ 9 0).mpr ⟨opField_formatXYN .., nField_formatXYN ..⟩
theorem EncodesInRow.ldI (nnn : BitVec 12) : EncodesInRow.Statement (.ldI nnn) :=
  (and_F000_iff _ 0xA).mpr (opField_formatNNN ..)
theorem EncodesInRow.jpV0 (nnn : BitVec 12) : EncodesInRow.Statement (.jpV0 nnn) :=
  (and_F000_iff _ 0xB).mpr (opField_formatNNN ..)
theorem EncodesInRow.rnd (x : Reg) (nn : Byte) : EncodesInRow.Statement (.rnd x nn) :=
  (and_F000_iff _ 0xC).mpr (opField_formatXNN ..)
theorem EncodesInRow.drw (x y : Reg) (n : Nat) : EncodesInRow.Statement (.drw x y n) :=
  (and_F000_iff _ 0xD).mpr (opField_formatXYN ..)
theorem EncodesInRow.skp (x : Reg) : EncodesInRow.Statement (.skp x) :=
  (and_F0FF_iff _ 0xE 0x9E).mpr ⟨opField_formatXNN .., nnField_formatXNN ..⟩
theorem EncodesInRow.sknp (x : Reg) : EncodesInRow.Statement (.sknp x) :=
  (and_F0FF_iff _ 0xE 0xA1).mpr ⟨opField_formatXNN .., nnField_formatXNN ..⟩
theorem EncodesInRow.ldVxDt (x : Reg) : EncodesInRow.Statement (.ldVxDt x) :=
  (and_F0FF_iff _ 0xF 0x07).mpr ⟨opField_formatXNN .., nnField_formatXNN ..⟩
theorem EncodesInRow.ldVxK (x : Reg) : EncodesInRow.Statement (.ldVxK x) :=
  (and_F0FF_iff _ 0xF 0x0A).mpr ⟨opField_formatXNN .., nnField_formatXNN ..⟩
theorem EncodesInRow.ldDtVx (x : Reg) : EncodesInRow.Statement (.ldDtVx x) :=
  (and_F0FF_iff _ 0xF 0x15).mpr ⟨opField_formatXNN .., nnField_formatXNN ..⟩
theorem EncodesInRow.ldStVx (x : Reg) : EncodesInRow.Statement (.ldStVx x) :=
  (and_F0FF_iff _ 0xF 0x18).mpr ⟨opField_formatXNN .., nnField_formatXNN ..⟩
theorem EncodesInRow.addI (x : Reg) : EncodesInRow.Statement (.addI x) :=
  (and_F0FF_iff _ 0xF 0x1E).mpr ⟨opField_formatXNN .., nnField_formatXNN ..⟩
theorem EncodesInRow.ldF (x : Reg) : EncodesInRow.Statement (.ldF x) :=
  (and_F0FF_iff _ 0xF 0x29).mpr ⟨opField_formatXNN .., nnField_formatXNN ..⟩
theorem EncodesInRow.ldB (x : Reg) : EncodesInRow.Statement (.ldB x) :=
  (and_F0FF_iff _ 0xF 0x33).mpr ⟨opField_formatXNN .., nnField_formatXNN ..⟩
theorem EncodesInRow.storeRegs (x : Reg) : EncodesInRow.Statement (.storeRegs x) :=
  (and_F0FF_iff _ 0xF 0x55).mpr ⟨opField_formatXNN .., nnField_formatXNN ..⟩
theorem EncodesInRow.loadRegs (x : Reg) : EncodesInRow.Statement (.loadRegs x) :=
  (and_F0FF_iff _ 0xF 0x65).mpr ⟨opField_formatXNN .., nnField_formatXNN ..⟩

end Sys2Proof.Laws
end

