-- ==== Sys2Proof/Tests/Slice0.lean ====
section
/-! SUPPORT. The model's own tests. The expected values of the one-step tests are those of spec/95_test_vectors.md (V0
to V7, S2 to S8) and of the examples of the rules named; the words of the decode tests are written out bit by bit from
spec/30_encoding.md R71, R72 and R76. The last part meets the hypotheses of each statement of
Certificates/Slice0/Obligations.lean, at boundary values. -/

namespace Sys2Proof.Tests

open Sys2Proof Sys2Proof.Machine

set_option Elab.async false

/-! ## Helpers -/

/-- The next state passes the test. -/
def nextHas (r : Result) (p : State → Bool) : Bool :=
  match r with
  | .next t => p t
  | .fault _ | .refused _ => false

/-- The outcome is the fault. -/
def faultsWith (r : Result) (f : Fault) : Bool :=
  match r with
  | .fault g => g == f
  | .next _ | .refused _ => false

/-- Where the next state passes a test, there is a next state that does. -/
theorem next_of_nextHas {r : Result} {p : State → Bool} (h : nextHas r p = true) : ∃ t, r = .next t ∧ p t = true := by
  cases r with
  | next t => exact ⟨t, rfl, h⟩
  | fault _ | refused _ => cases h

/-- Where the outcome is the fault, it is the fault. -/
theorem fault_of_faultsWith {r : Result} {f : Fault} (h : faultsWith r f = true) : r = .fault f := by
  cases r with
  | fault g => rw [faultsWith, beq_iff_eq] at h; rw [h]
  | next _ | refused _ => cases h

/-- The reset state with some registers written. -/
def regs (l : List (Reg × Byte)) : State := l.foldl (fun s p => s.setV p.1 p.2) State.reset

/-- One step of a word in the place of the next fetch. -/
def stepOf (w : Nat) (s : State) : Result := step (s.withFetchWord 16 w)

/-- The step completes two bytes on and the registers hold these values. -/
def stepGives (w : Nat) (s : State) (l : List (Reg × Byte)) : Bool :=
  nextHas (stepOf w s) fun t => t.pc == 0x0202 && l.all fun p => t.getV p.1 == p.2

/-- The step completes with the next instruction at this address. -/
def stepGoesTo (w : Nat) (s : State) (a : Word) : Bool := nextHas (stepOf w s) fun t => t.pc == a

/-- The keys that are down. -/
def keysDown (l : List (Fin 16)) : Vector Bool 16 := Vector.ofFn fun k => l.contains k

/-- Memory with bytes at an address. -/
def memAt (a : Nat) (bs : List Byte) : Memory := Memory.writeBlock [] a bs

/-! ## Well-formedness: the one check, and the term it refuses -/

theorem test_wellFormed_refuses_16_rows : (Instr.drw 0 0 16).wellFormed = false := by decide
theorem test_wellFormed_admits_15_rows : (Instr.drw 0 0 15).wellFormed = true := by decide

/-! ## Decoding: every row's word, its bits from R76 with X = 1, Y = 2 -/

theorem test_decode_family_0 :
    decodeWord 0b0000000011100000 = some .cls ∧ decodeWord 0b0000000011101110 = some .ret := by decide

theorem test_decode_NNN :
    decodeWord 0b0001101010111100 = some (.jp 0xABC) ∧ decodeWord 0b0010101010111100 = some (.call 0xABC) ∧
    decodeWord 0b1010101010111100 = some (.ldI 0xABC) ∧ decodeWord 0b1011101010111100 = some (.jpV0 0xABC) := by decide

theorem test_decode_XNN :
    decodeWord 0b0011000100101010 = some (.seImm 1 0x2A) ∧ decodeWord 0b0100000100101010 = some (.sneImm 1 0x2A) ∧
    decodeWord 0b0110000100101010 = some (.ldImm 1 0x2A) ∧ decodeWord 0b0111000100101010 = some (.addImm 1 0x2A) ∧
    decodeWord 0b1100000100101010 = some (.rnd 1 0x2A) := by decide

theorem test_decode_families_5_9_D :
    decodeWord 0b0101000100100000 = some (.seReg 1 2) ∧ decodeWord 0b1001000100100000 = some (.sneReg 1 2) ∧
    decodeWord 0b1101000100100101 = some (.drw 1 2 5) := by decide

theorem test_decode_family_8 :
    decodeWord 0b1000000100100000 = some (.ldReg 1 2) ∧ decodeWord 0b1000000100100001 = some (.orReg 1 2) ∧
    decodeWord 0b1000000100100010 = some (.andReg 1 2) ∧ decodeWord 0b1000000100100011 = some (.xorReg 1 2) ∧
    decodeWord 0b1000000100100100 = some (.addReg 1 2) ∧ decodeWord 0b1000000100100101 = some (.subReg 1 2) ∧
    decodeWord 0b1000000100100110 = some (.shr 1 2) ∧ decodeWord 0b1000000100100111 = some (.subnReg 1 2) ∧
    decodeWord 0b1000000100101110 = some (.shl 1 2) := by decide

theorem test_decode_family_E :
    decodeWord 0b1110000110011110 = some (.skp 1) ∧ decodeWord 0b1110000110100001 = some (.sknp 1) := by decide

theorem test_decode_family_F :
    decodeWord 0b1111000100000111 = some (.ldVxDt 1) ∧ decodeWord 0b1111000100001010 = some (.ldVxK 1) ∧
    decodeWord 0b1111000100010101 = some (.ldDtVx 1) ∧ decodeWord 0b1111000100011000 = some (.ldStVx 1) ∧
    decodeWord 0b1111000100011110 = some (.addI 1) ∧ decodeWord 0b1111000100101001 = some (.ldF 1) ∧
    decodeWord 0b1111000100110011 = some (.ldB 1) ∧ decodeWord 0b1111000101010101 = some (.storeRegs 1) ∧
    decodeWord 0b1111000101100101 = some (.loadRegs 1) := by decide

/-- V0: the words that match no row. -/
theorem test_decode_unknown :
    (([0x0000, 0x0123, 0x00E1, 0x00EF, 0x00FF, 0x5121, 0x512F, 0x8128, 0x8129, 0x812A, 0x812B, 0x812C, 0x812D] ++
      [0x812F, 0x9121, 0xE19F, 0xE100, 0xE1A0, 0xF100, 0xF1FF, 0xF108, 0xF116, 0xF130, 0xF156, 0xF166] : List Word).all
      fun w => decodeWord w == none) = true := by decide

/-- V0: words that look odd and are valid. -/
theorem test_decode_odd_looking :
    decodeWord 0xD120 = some (.drw 1 2 0) ∧ decodeWord 0x1000 = some (.jp 0) ∧ decodeWord 0xB000 = some (.jpV0 0) := by
  decide

/-- V0, R53: the byte at the lower address is the high one; fewer than two bytes are no instruction. -/
theorem test_decode_bytes :
    decode [0x61, 0x2A, 0x00] = .ok (.ldImm 1 0x2A, [0x00]) ∧ decode [0x2A, 0x61] = .ok (.call 0xA61, []) ∧
    decode [0x61] = .error .truncated ∧ decode [0x00, 0x00] = .error (.unknown 0x0000) := by
  refine ⟨rfl, rfl, rfl, rfl⟩

theorem test_decodeTableWord : decodeTableWord 16 0xD125 = some (.drw 1 2 5) ∧ decodeTableWord 16 0x00E1 = none := by
  decide

/-- R76: 34 rows, no two of which share a word (two rows share one exactly where they agree on the bits both fix). -/
theorem test_opcodeMap_rows_disjoint :
    opcodeMap.length = 34 ∧
      opcodeMap.Pairwise (fun p q => p.value &&& (p.mask &&& q.mask) ≠ q.value &&& (p.mask &&& q.mask)) := by
  decide +kernel

/-! ## Memory and reset -/

theorem test_memory_canonical :
    Memory.wf State.reset.mem ∧ Memory.wf State.powerOn.mem ∧ memAt 0x300 [1, 0] = [(0x300, 1)] ∧
      Memory.write [(0x300, 1)] 0x300 0 = [] := by decide +kernel

/-- V7: a step of the reset state with no program fetches 0x0000. -/
theorem test_step_of_reset : faultsWith (step State.reset) (.unknownInstruction 0x0000) = true := by decide

/-- V7: `initialize` keeps what it does not name. -/
theorem test_initialize_keeps :
    (let t := hostInitialize { regs [(3, 9)] with pc := 0x0456, sp := 2, dt := 7, draw := true, mem := memAt 0x200 [0x12] }
     t.pc == 0x0200 && !t.draw && t.getV 3 == 9 && t.sp == 2 && t.dt == 7 && t.mem.read 0x200 == 0x12 &&
       t.mem.read 0 == 0xF0) = true := by decide +kernel

/-! ## The step (V0, V6) -/

theorem test_fetch_last_word : stepGoesTo 0x1200 { State.reset with pc := 0x0FFE } 0x0200 = true := by decide
theorem test_fetch_past_last_word :
    faultsWith (step { State.reset with pc := 0x0FFF }) (.outOfBounds 0x0FFF) = true := by decide
theorem test_fetch_odd : stepGoesTo 0x1200 { State.reset with pc := 0x0201 } 0x0200 = true := by decide

/-- V6: the tick alone. -/
theorem test_tick :
    ([(0, 0, 0, 0, false), (1, 0, 0, 0, false), (255, 0, 254, 0, false), (0, 2, 0, 1, false), (0, 1, 0, 0, true),
      (7, 1, 6, 0, true)].all fun (d, e, d', e', b) =>
        nextHas (stepOf 0x6000 { State.reset with dt := d, st := e }) fun t => t.dt == d' && t.st == e' && t.tone == b)
      = true := by decide

/-! ## Control transfer (V1) -/

theorem test_jp : stepGoesTo 0x1ABC State.reset 0x0ABC = true := by decide
theorem test_call :
    nextHas (stepOf 0x2ABC { State.reset with sp := 15 })
      (fun t => t.pc == 0x0ABC && t.sp == 16 && t.stack[15] == 0x0202) = true := by decide
theorem test_call_overflow :
    faultsWith (stepOf 0x2ABC { State.reset with sp := 16 }) (.stackOverflow 0x0200) = true := by decide
theorem test_ret :
    nextHas (stepOf 0x00EE { State.reset with sp := 1, stack := State.reset.stack.set 0 0x0456 })
      (fun t => t.pc == 0x0456 && t.sp == 0) = true := by decide
theorem test_ret_underflow : faultsWith (stepOf 0x00EE State.reset) (.stackUnderflow 0x0200) = true := by decide
theorem test_seImm :
    (stepGoesTo 0x312A (regs [(1, 0x2A)]) 0x0204 && stepGoesTo 0x312A (regs [(1, 0x2B)]) 0x0202) = true := by decide
theorem test_sneImm :
    (stepGoesTo 0x412A (regs [(1, 0x2A)]) 0x0202 && stepGoesTo 0x412A (regs [(1, 0x2B)]) 0x0204) = true := by decide
theorem test_seReg :
    (stepGoesTo 0x5120 (regs [(1, 7), (2, 7)]) 0x0204 && stepGoesTo 0x5120 (regs [(1, 7), (2, 8)]) 0x0202) = true := by
  decide
theorem test_sneReg :
    (stepGoesTo 0x9120 (regs [(1, 7), (2, 7)]) 0x0202 && stepGoesTo 0x9120 (regs [(1, 7), (2, 8)]) 0x0204) = true := by
  decide
theorem test_jpV0 : stepGoesTo 0xB300 (regs [(0, 0x10)]) 0x0310 = true := by decide
theorem test_jpV0_past_memory : stepGoesTo 0xBFFF (regs [(0, 0xFF)]) 0x10FE = true := by decide

/-! ## Register load and ALU (V2) -/

theorem test_ldImm : stepGives 0x6F12 State.reset [(0xF, 0x12)] = true := by decide
theorem test_addImm : stepGives 0x7002 (regs [(0, 0xFF), (0xF, 9)]) [(0, 1), (0xF, 9)] = true := by decide
theorem test_ldReg : stepGives 0x8010 (regs [(0, 0x11), (1, 0x99), (0xF, 7)]) [(0, 0x99), (0xF, 7)] = true := by decide
theorem test_orReg : stepGives 0x8011 (regs [(0, 0xF0), (1, 0x0F), (0xF, 7)]) [(0, 0xFF), (0xF, 7)] = true := by decide
theorem test_andReg : stepGives 0x8012 (regs [(0, 0xF0), (1, 0x3C), (0xF, 7)]) [(0, 0x30), (0xF, 7)] = true := by decide
theorem test_xorReg : stepGives 0x8013 (regs [(0, 0xF0), (1, 0x3C), (0xF, 7)]) [(0, 0xCC), (0xF, 7)] = true := by decide
theorem test_addReg : stepGives 0x8014 (regs [(0, 0xFF), (1, 0xFF)]) [(0, 0xFE), (0xF, 1)] = true := by decide
theorem test_addReg_flag_last : stepGives 0x8F14 (regs [(0xF, 5), (1, 3)]) [(0xF, 0), (1, 3)] = true := by decide
theorem test_subReg_equal : stepGives 0x8015 (regs [(0, 7), (1, 7)]) [(0, 0), (0xF, 1)] = true := by decide
theorem test_subReg_borrow : stepGives 0x8015 (regs [(0, 3), (1, 5)]) [(0, 0xFE), (0xF, 0)] = true := by decide
theorem test_subnReg : stepGives 0x8017 (regs [(0, 3), (1, 5)]) [(0, 2), (0xF, 1)] = true := by decide
theorem test_subnReg_borrow : stepGives 0x8017 (regs [(0, 5), (1, 3)]) [(0, 0xFE), (0xF, 0)] = true := by decide

/-- `8006` (X = Y, so under either `SHIFT_SOURCE`): 0x05 gives 0x02 and the bit shifted out is 1. -/
theorem test_shr : nextHas (exec (.shr 0 0) (regs [(0, 5)])) (fun t => t.getV 0 == 2 && t.getV 0xF == 1) = true := by
  simp only [exec, execShr, shiftOperand_self]
  decide

/-- `800E`: 0x81 gives 0x02 and the bit shifted out is 1. -/
theorem test_shl : nextHas (exec (.shl 0 0) (regs [(0, 0x81)])) (fun t => t.getV 0 == 2 && t.getV 0xF == 1) = true := by
  simp only [exec, execShl, shiftOperand_self]
  decide

/-- Both values of the open parameter (R139's two examples). -/
theorem test_shift_sources :
    shiftOperandOf .vx 0 1 (regs [(0, 5), (1, 0xAA)]) = 5 ∧ shiftOperandOf .vy 0 1 (regs [(0, 0xAA), (1, 5)]) = 5 := by
  decide

/-- V2, `C100`: the mask 0 gives 0 whatever byte is drawn. -/
theorem test_rnd_mask_zero (s : State) : ∃ t, exec (.rnd 1 0) s = .next t ∧ t.getV 1 = 0 :=
  ⟨_, rfl, by simp [State.getV, State.setV, State.countDraw, State.advance]⟩

/-! ## Index register and memory (V3, S6, S8) -/

theorem test_ldI : nextHas (stepOf 0xA123 State.reset) (fun t => t.i == 0x0123) = true := by decide
theorem test_addI_past_memory :
    nextHas (stepOf 0xF01E { regs [(0, 1)] with i := 0x0FFF }) (fun t => t.i == 0x1000 && t.getV 0xF == 1) = true := by
  decide
theorem test_addI_wraps :
    nextHas (stepOf 0xF01E { regs [(0, 2)] with i := 0xFFFF }) (fun t => t.i == 0x0001 && t.getV 0xF == 1) = true := by
  decide
theorem test_ldF_glyph_A :
    nextHas (stepOf 0xF029 (regs [(0, 0x0A)]))
      (fun t => t.i == 50 && (List.range 5).map (fun k => t.mem.read (50 + k)) == [0xF0, 0x90, 0xF0, 0x90, 0x90]) = true := by
  decide
theorem test_ldF_unmasked : nextHas (stepOf 0xF029 (regs [(0, 0xFF)])) (fun t => t.i == 0x04FB) = true := by decide
theorem test_ldB :
    nextHas (stepOf 0xF333 { regs [(3, 0x2A)] with i := 0x0300, mem := memAt 0x300 [9, 9, 9, 9] })
      (fun t => (List.range 4).map (fun k => t.mem.read (0x300 + k)) == [0, 4, 2, 9] && t.i == 0x0300) = true := by decide
theorem test_ldB_past_memory :
    faultsWith (stepOf 0xF033 { regs [(0, 255)] with i := 0x0FFE }) (.outOfBounds 0x1000) = true := by decide
theorem test_storeRegs :
    nextHas (stepOf 0xF255 { regs [(0, 0x11), (1, 0x22), (2, 0x33), (3, 0x44)] with i := 0x0300 })
      (fun t => (List.range 4).map (fun k => t.mem.read (0x300 + k)) == [0x11, 0x22, 0x33, 0] && t.i == 0x0303) = true := by
  decide
theorem test_storeRegs_past_memory :
    faultsWith (stepOf 0xFF55 { State.reset with i := 0x0FF1 }) (.outOfBounds 0x1000) = true := by decide
theorem test_loadRegs :
    nextHas (stepOf 0xF265 { State.reset with i := 0x0300, mem := memAt 0x300 [0x11, 0x22, 0x33, 0x44] })
      (fun t => [t.getV 0, t.getV 1, t.getV 2, t.getV 3] == [0x11, 0x22, 0x33, 0] && t.i == 0x0303) = true := by decide
theorem test_loadRegs_past_memory :
    faultsWith (stepOf 0xFF65 { State.reset with i := 0x0FF1 }) (.outOfBounds 0x1000) = true := by decide

/-! ## Display (V4) -/

/-- The row-0 pixels of some columns. -/
def rowZero (t : State) (columns : List (Fin 64)) : List Bool := columns.map fun x => t.fb.pixel x 0

/-- A screen with these pixels set. -/
def screen (l : List (Fin 64 × Fin 32)) : Framebuffer := l.foldl (fun fb p => fb.flip p.1 p.2) Framebuffer.clear

theorem test_cls :
    nextHas (stepOf 0x00E0 { regs [(0xF, 7)] with fb := screen [(0, 0), (63, 31)] })
      (fun t => rowZero t [0, 1] == [false, false] && !t.fb.pixel 63 31 && t.draw && t.getV 0xF == 7) = true := by decide +kernel

/-- The mixed case: (0,0) goes out, (1,0) stays, (2,0) comes on, and VF reports the collision. -/
theorem test_drw_collision :
    nextHas (stepOf 0xD011 { State.reset with i := 0x0300, mem := memAt 0x300 [0xA0], fb := screen [(0, 0), (1, 0)] })
      (fun t => rowZero t [0, 1, 2, 3] == [false, true, true, false] && t.getV 0xF == 1 && t.draw) = true := by decide +kernel

/-- A sprite row at column 60 wraps to the left edge of its own row. -/
theorem test_drw_wraps :
    nextHas (stepOf 0xD011 { regs [(0, 60)] with i := 0x0300, mem := memAt 0x300 [0xFF] })
      (fun t => rowZero t [59, 60, 63, 0, 3, 4] == [false, true, true, true, true, false] && t.getV 0xF == 0) = true := by decide +kernel

/-! ## Keys and timers (V5, V6) -/

theorem test_skp :
    (stepGoesTo 0xE49E { regs [(4, 0x0A)] with keys := keysDown [0xA] } 0x0204 &&
      stepGoesTo 0xE49E { regs [(4, 0x0A)] with keys := keysDown [0xB] } 0x0202) = true := by decide
theorem test_skp_past_keys : faultsWith (stepOf 0xE49E (regs [(4, 0x10)])) (.outOfBounds 0x10) = true := by decide
theorem test_sknp :
    (stepGoesTo 0xE4A1 { regs [(4, 0x0A)] with keys := keysDown [0xA] } 0x0202 &&
      stepGoesTo 0xE4A1 (regs [(4, 0x0A)]) 0x0204) = true := by decide
theorem test_sknp_past_keys : faultsWith (stepOf 0xE4A1 (regs [(4, 0xFF)])) (.outOfBounds 0xFF) = true := by decide
theorem test_ldVxK_waits :
    nextHas (stepOf 0xF50A { regs [(5, 0x77)] with dt := 3 }) (fun t => t.pc == 0x0200 && t.getV 5 == 0x77 && t.dt == 2)
      = true := by decide
theorem test_ldVxK_lowest : stepGives 0xF50A { State.reset with keys := keysDown [7, 3] } [(5, 3)] = true := by decide
theorem test_ldVxDt : nextHas (stepOf 0xF107 { State.reset with dt := 2 }) (fun t => t.getV 1 == 2 && t.dt == 1) = true := by
  decide
theorem test_ldDtVx : nextHas (stepOf 0xF015 (regs [(0, 3)])) (fun t => t.dt == 2) = true := by decide
theorem test_ldStVx_pulse :
    nextHas (stepOf 0xF018 (regs [(0, 1)])) (fun t => t.st == 0 && t.tone) = true := by decide
theorem test_ldStVx_no_pulse :
    nextHas (stepOf 0xF018 { State.reset with st := 1 }) (fun t => t.st == 0 && !t.tone) = true := by decide

/-! ## Witnesses: states and operands that meet the hypotheses of each statement, at the boundaries of its clauses -/

/-- Some next state. -/
theorem completes {r : Result} (h : nextHas r (fun _ => true) = true) : ∃ t, r = .next t :=
  (next_of_nextHas h).imp fun _ => And.left

/-- The reset state with `PC` at the last address a word can be fetched from. -/
def atTop : State := { State.reset with pc := 0x0FFE }

/-- The reset state with a full stack. -/
def fullStack : State := { State.reset with sp := 16, stack := Vector.replicate 16 0x1000 }

theorem witness_DecodeOfEncodeIsTheInstruction : (Instr.drw 0xF 0xF 15).wellFormed = true ∧ Instr.cls.wellFormed = true := by
  decide
theorem witness_EncodeOfDecodeIsTheWord : decodeWord 0xDFFF = some (.drw 0xF 0xF 15) := by decide
theorem witness_DecodeFollowsTheOpcodeMap :
    decodeWord 0xF165 = some (.loadRegs 1) ∧ (Instr.loadRegs 0).row ∈ opcodeMap ∧
      (0xF165 : Word) &&& (Instr.loadRegs 0).row.mask = (Instr.loadRegs 0).row.value := by decide +kernel
theorem witness_UnmatchedWordRaisesUnknownInstruction :
    atTop.pc.toNat ≤ 0xFFE ∧ ∀ row ∈ opcodeMap, wordAtPc atTop &&& row.mask ≠ row.value := by decide +kernel
theorem witness_StepRunsTheDecodedInstruction_next :
    let s := atTop.withFetchWord 16 0x1200
    s.pc.toNat ≤ 0xFFE ∧ decode [s.mem.read s.pc.toNat, s.mem.read (s.pc.toNat + 1)] = .ok (.jp 0x200, []) ∧
      ∃ u, exec (.jp 0x200) s = .next u := ⟨by decide, rfl, _, rfl⟩
theorem witness_StepRunsTheDecodedInstruction_fault :
    let s := State.reset.withFetchWord 16 0x00EE
    s.pc.toNat ≤ 0xFFE ∧ decode [s.mem.read s.pc.toNat, s.mem.read (s.pc.toNat + 1)] = .ok (.ret, []) ∧
      ∃ f, exec .ret s = .fault f := ⟨by decide, rfl, _, fault_of_faultsWith (f := .stackUnderflow 0x0200) (by decide)⟩
theorem witness_FetchIsBigEndian : atTop.pc.toNat ≤ 0xFFE := by decide
theorem witness_FetchPastMemoryIsOutOfBounds : 0xFFE < ({ State.reset with pc := 0x0FFF } : State).pc.toNat := by decide
theorem witness_EveryCompletedStepTicks :
    ∃ u, fetchDecode (State.reset.withFetchWord 16 0x6000) = .ok (.ldImm 0 0) ∧
      exec (.ldImm 0 0) (State.reset.withFetchWord 16 0x6000) = .next u := ⟨_, rfl, rfl⟩

/-- Each kind of condition of the table, and no condition. -/
theorem witness_StepFaultsExactlyAsTabulated :
    [State.reset, { State.reset with pc := 0x0FFF }, State.reset.withFetchWord 16 0x00EE, fullStack.withFetchWord 16 0x2200,
      (regs [(1, 16)]).withFetchWord 16 0xE19E, { State.reset with i := 0x0FFE }.withFetchWord 16 0xF033,
      { State.reset with i := 0x0FF1 }.withFetchWord 16 0xFF65, State.reset.withFetchWord 16 0x1200].map tabulatedFault =
    [some (.unknownInstruction 0x0000), some (.outOfBounds 0x0FFF), some (.stackUnderflow 0x0200),
      some (.stackOverflow 0x0200), some (.outOfBounds 16), some (.outOfBounds 0x1000), some (.outOfBounds 0x1000), none] := by
  decide +kernel

theorem witness_ExecuteWritesOnlyItsOwnParts : ∃ t, exec (.storeRegs 0xF) { State.reset with i := 0x0FF0 } = .next t :=
  completes (by decide)
theorem witness_StepWritesOnlyItsOwnPartsAndTimers :
    fetchDecode (State.reset.withFetchWord 16 0x00E0) = .ok .cls ∧
      ∃ t, step (State.reset.withFetchWord 16 0x00E0) = .next t := ⟨rfl, completes (by decide)⟩
theorem witness_FlagRegisterIsWrittenByFlagInstructions :
    (∃ t, exec (.addReg 0xF 1) State.reset = .next t) ∧ writesFlag (.addReg 0xF 1) = true ∧
      (∃ t, exec (.loadRegs 0xE) State.reset = .next t) ∧ writesFlag (.loadRegs 0xE) = false ∧
      operandX (.loadRegs 0xE) ≠ some 0xF := ⟨⟨_, rfl⟩, rfl, completes (by decide), rfl, by decide⟩

theorem witness_ReturnPopsTheStack :
    State.reset.sp.val = 0 ∧ ({ fullStack with sp := 1 } : State).sp.val = (0 : Fin 16).val + 1 ∧
      fullStack.sp.val = (15 : Fin 16).val + 1 := by decide
theorem witness_CallPushesTheReturnAddress :
    fullStack.sp.val = 16 ∧ State.reset.sp.val = (0 : Fin 16).val ∧
      ({ fullStack with sp := 15 } : State).sp.val = (15 : Fin 16).val := by decide

/-- The call that fills the stack, and the return from it. -/
theorem witness_ReturnUndoesCall :
    ∃ t u : State, exec (.call 0x300) { fullStack with sp := 15 } = .next t ∧ u.stack = t.stack ∧ u.sp = t.sp := by
  obtain ⟨t, ht⟩ := completes (r := exec (.call 0x300) { fullStack with sp := 15 }) (by decide)
  exact ⟨t, t, ht, rfl, rfl⟩

theorem witness_SkipsOnALiteral : State.reset.getV 0xF = 0 ∧ State.reset.getV 0xF ≠ 0xFF := by decide
theorem witness_SkipsOnTwoRegisters :
    State.reset.getV 0 = State.reset.getV 0xF ∧ (regs [(0, 1)]).getV 0 ≠ (regs [(0, 1)]).getV 0xF := by decide

/-- The clause on VX in the statements of the flag instructions. -/
theorem witness_flag_instructions_X : (0xE : Reg) ≠ 0xF := by decide

theorem witness_GlyphAddressIsFiveTimesTheDigit :
    (∀ k < 80, (regs [(0, 15)]).mem.read k = fontTable.getD k 0) ∧ ((regs [(0, 15)]).getV 0).toNat < 16 := by
  decide +kernel
theorem witness_DecimalDigitsAreStored :
    0xFFF < ({ State.reset with i := 0x0FFE } : State).i.toNat + 2 ∧
      ({ State.reset with i := 0x0FFD } : State).i.toNat + 2 ≤ 0xFFF ∧ State.reset.mem.wf := by decide

/-- The hypotheses of the block store and of the block load. -/
theorem witness_block_transfers :
    0xFFF < ({ State.reset with i := 0x0FF1 } : State).i.toNat + (0xF : Reg).val ∧
      ({ State.reset with i := 0x0FF0 } : State).i.toNat + (0xF : Reg).val ≤ 0xFFF ∧ State.reset.mem.wf ∧
      (0xF : Reg) ≤ 0xF := by decide

theorem witness_LoadedBlockIsTheStoredBlock :
    ∃ t u : State, State.reset.mem.wf ∧ exec (.storeRegs 0xF) { State.reset with i := 0x0FF0 } = .next t ∧
      u.mem = t.mem ∧ u.i = ({ State.reset with i := 0x0FF0 } : State).i := by
  obtain ⟨t, ht⟩ := completes (r := exec (.storeRegs 0xF) { State.reset with i := 0x0FF0 }) (by decide)
  exact ⟨t, { t with i := 0x0FF0 }, by decide, ht, rfl, rfl⟩

/-- A sprite that leaves memory, one that just fits, one of no rows. -/
theorem witness_DrawXorsTheSprite_bounds :
    (0 < 15 ∧ 0xFFF < ({ State.reset with i := 0x0FF2 } : State).i.toNat + 15 - 1) ∧
      (15 ≤ 15 ∧ ({ State.reset with i := 0x0FF1 } : State).i.toNat + 15 - 1 ≤ 0xFFF) ∧ 0 ≤ 15 := by decide

/-- A set pixel under a 1 bit (glyph 0 at (0,0)), and no set pixel. -/
theorem witness_DrawXorsTheSprite_collision :
    (∃ px py, ({ State.reset with fb := screen [(0, 0)] } : State).fb.pixel px py = true ∧
      SpriteCovers { State.reset with fb := screen [(0, 0)] } 0 0 5 px py) ∧
    ∀ px py, State.reset.fb.pixel px py = true → ¬SpriteCovers State.reset 0 0 5 px py := by
  refine ⟨⟨0, 0, by decide +kernel, 0, by decide, 0, by decide, by decide, by decide, by decide⟩, fun px py h => ?_⟩
  have := Framebuffer.pixel_clear px py
  simp_all [State.reset, Framebuffer.clear]

theorem witness_DrawingTwiceRestoresTheFramebuffer :
    ∃ t u, exec (.drw 0 1 5) State.reset = .next t ∧ exec (.drw 0 1 5) t = .next u ∧
      State.reset.fb.pixel 0 0 = false ∧ t.fb.pixel 0 0 = true := by
  obtain ⟨t, ht, h⟩ := next_of_nextHas (r := exec (.drw 0 1 5) State.reset)
    (p := fun t => t.fb.pixel 0 0 && nextHas (exec (.drw 0 1 5) t) fun _ => true) (by decide +kernel)
  rw [Bool.and_eq_true] at h
  obtain ⟨u, hu⟩ := completes h.2
  exact ⟨t, u, ht, hu, by decide, h.1⟩

theorem witness_KeySkipsTestTheNamedKey :
    15 < ((regs [(1, 16)]).getV 1).toNat ∧ ((regs [(1, 15)]).getV 1).toNat = (15 : Fin 16).val ∧
      ((regs [(1, 0)]).getV 1).toNat = (0 : Fin 16).val ∧ (keysDown [15])[(15 : Fin 16)] = true ∧
      (keysDown [15])[(0 : Fin 16)] = false := by decide
theorem witness_KeyWaitTakesTheLowestKey :
    (∀ k : Fin 16, State.reset.keys[k] = false) ∧
      ((keysDown [15, 3])[(3 : Fin 16)] = true ∧ ∀ j : Fin 16, j < 3 → (keysDown [15, 3])[j] = false) ∧
      ((keysDown [15])[(15 : Fin 16)] = true ∧ ∀ j : Fin 16, j < 15 → (keysDown [15])[j] = false) := by decide
theorem witness_KeyWaitSpinsWhileTimersRun :
    fetchDecode (State.reset.withFetchWord 16 0xF50A) = .ok (.ldVxK 5) ∧
      ∀ k : Fin 16, (State.reset.withFetchWord 16 0xF50A).keys[k] = false := ⟨rfl, by decide⟩
theorem witness_SelfJumpOnlyRunsTheTimersDown :
    fetchDecode (State.reset.withFetchWord 16 0x1200) = .ok (.jp 0x200) ∧
      (0x200#12).toNat = (State.reset.withFetchWord 16 0x1200).pc.toNat := ⟨rfl, by decide⟩

/-- A step that sets the redraw flag and changes the framebuffer, and one that finds the flag set. -/
theorem witness_EngineKeepsKeysAndRedrawFlag :
    (∃ t, step (State.reset.withFetchWord 16 0xD005) = .next t ∧ t.fb ≠ State.reset.fb) ∧
      ∃ t, step ({ State.reset with draw := true }.withFetchWord 16 0x6000) = .next t := by
  obtain ⟨t, ht, h⟩ := next_of_nextHas (r := step (State.reset.withFetchWord 16 0xD005)) (p := fun t => t.fb.pixel 0 0)
    (by decide +kernel)
  refine ⟨⟨t, ht, fun he => ?_⟩, completes (by decide)⟩
  rw [he] at h
  exact absurd h (by decide)

theorem witness_OnlyKeyInstructionsReadKeys : readsKeys (.ldVxDt 1) = false := by decide
theorem witness_OnlyRandomInstructionReadsRandomBytes : ∀ x nn, Instr.ldImm 1 2 ≠ .rnd x nn := by simp
theorem witness_NoInstructionReadsTheSoundTimer : ∀ x, Instr.ldDtVx 1 ≠ .ldStVx x := by simp

/-- The last call that fits: the entry it pushes is 0x1000. -/
theorem witness_StepKeepsTheInvariant :
    Inv ({ fullStack with sp := 15, pc := 0x0FFE }.withFetchWord 16 0x2200) ∧
      ∃ t, step ({ fullStack with sp := 15, pc := 0x0FFE }.withFetchWord 16 0x2200) = .next t :=
  ⟨⟨by decide, by decide, by decide⟩, completes (by decide)⟩

/-- An image that fits is loaded. -/
theorem loads {bytes : List Byte} {s : State} (h : 0x200 + bytes.length ≤ 4096) :
    hostMove (.loadProgram bytes) s = .next { s with mem := s.mem.writeBlock 0x200 bytes } := if_neg (by omega)

/-- Each move of the host, the largest image that fits included. -/
theorem witness_HostMovesKeepTheInvariant :
    Inv State.reset ∧ (∀ f, ∃ t, hostMove (.initializeFont f) State.reset = .next t) ∧
      (∃ t, hostMove (.loadProgram (List.replicate 3584 0)) State.reset = .next t) ∧
      (∃ t, hostMove .clearRedraw State.reset = .next t) ∧ ∀ k, ∃ t, hostMove (.keys k) State.reset = .next t :=
  ⟨⟨by decide, by decide, by decide⟩, fun _ => ⟨_, rfl⟩,
    ⟨_, loads (by rw [List.length_replicate])⟩, ⟨_, rfl⟩, fun _ => ⟨_, rfl⟩⟩

/-- A state reached by initializing, loading a program and running its first instruction. -/
theorem witness_ReachableStatesHaveTheInvariant : ∃ s, Reachable s ∧ s.pc = 0x0202 ∧ s.getV 1 = 0x2A := by
  let font : Vector Byte 80 := Vector.replicate 80 0xFF
  let started := hostInitializeWith font.toList State.powerOn
  obtain ⟨s, hs, h⟩ := next_of_nextHas (r := step { started with mem := started.mem.writeBlock 0x200 [0x61, 0x2A] })
    (p := fun t => t.pc == 0x0202 && t.getV 1 == 0x2A) (by decide +kernel)
  rw [Bool.and_eq_true, beq_iff_eq, beq_iff_eq] at h
  exact ⟨s, .step (.host _ (.host (.initializeFont font) .powerOn rfl) (loads (by decide))) hs, h.1, h.2⟩

theorem witness_InitializeWritesFontAndEntry : State.powerOn.mem.wf := by decide +kernel
theorem witness_ProgramIsLoadedWholeOrRejected :
    4096 < 0x200 + (List.replicate 3585 (0 : Byte)).length ∧ 0x200 + (List.replicate 3584 (0 : Byte)).length ≤ 4096 ∧
      State.reset.mem.wf := by
  rw [List.length_replicate, List.length_replicate]
  decide
theorem witness_HostPortsReadPixelsAndRedrawFlag : (63 < 64 ∨ 31 < 0) ∧ (63 < 0 ∨ 31 < 32) := by decide

end Sys2Proof.Tests
end

/-! The frame rule of each operation on the state: the parts that it leaves as they are. -/

namespace Sys2Proof.Machine

section FrameRules

variable {p : Part} {s t u : State}

@[simp] theorem Part.same_refl (p : Part) (s : State) : p.same s s := by
  cases p <;> rfl

@[simp] theorem Part.same_advance (hp : p ≠ .pc) : p.same s t.advance ↔ p.same s t := by
  cases p with
  | pc => exact absurd rfl hp
  | _ => exact Iff.rfl

@[simp] theorem Part.same_skipIf (b : Bool) (hp : p ≠ .pc) : p.same s (t.skipIf b) ↔ p.same s t := by
  cases p with
  | pc => exact absurd rfl hp
  | _ => exact Iff.rfl

@[simp] theorem Part.same_jump (a : Word) (hp : p ≠ .pc) : p.same s (t.jump a) ↔ p.same s t := by
  cases p with
  | pc => exact absurd rfl hp
  | _ => exact Iff.rfl

@[simp] theorem Part.same_setI (a : Word) (hp : p ≠ .i) : p.same s (t.setI a) ↔ p.same s t := by
  cases p with
  | i => exact absurd rfl hp
  | _ => exact Iff.rfl

@[simp] theorem Part.same_setDt (b : Byte) (hp : p ≠ .dt) : p.same s (t.setDt b) ↔ p.same s t := by
  cases p with
  | dt => exact absurd rfl hp
  | _ => exact Iff.rfl

@[simp] theorem Part.same_setSt (b : Byte) (hp : p ≠ .st) : p.same s (t.setSt b) ↔ p.same s t := by
  cases p with
  | st => exact absurd rfl hp
  | _ => exact Iff.rfl

@[simp] theorem Part.same_countDraw (hp : p ≠ .rndIndex) : p.same s t.countDraw ↔ p.same s t := by
  cases p with
  | rndIndex => exact absurd rfl hp
  | _ => exact Iff.rfl

@[simp] theorem Part.same_setV {x : Reg} (b : Byte) (hp : p ≠ .v x) : p.same s (t.setV x b) ↔ p.same s t := by
  cases p with
  | v k => rw [Part.same, Part.same, State.setV_getV_other b fun hk => hp (congrArg Part.v hk)]
  | _ => exact Iff.rfl

@[simp] theorem Part.same_setVThenFlag {x : Reg} (b f : Byte) (hx : p ≠ .v x) (hf : p ≠ .v 0xF) :
    p.same s (t.setVThenFlag x b f) ↔ p.same s t :=
  (Part.same_setV f hf).trans (Part.same_setV b hx)

@[simp] theorem Part.same_setScreen (fb : Framebuffer) (hd : p ≠ .draw) (hp : p.isPixel = false) :
    p.same s (t.setScreen fb) ↔ p.same s t := by
  cases p with
  | draw => exact absurd rfl hd
  | pixel x y => simp [Part.isPixel] at hp
  | _ => exact Iff.rfl

@[simp] theorem Part.same_setMem_writeBlock {a : Nat} {bs : List Byte} (hp : p.isByteIn a bs.length = false) :
    p.same s (t.setMem (t.mem.writeBlock a bs)) ↔ p.same s t := by
  cases p with
  | byte c =>
    have hc : c < a ∨ a + bs.length ≤ c := by
      simp only [Part.isByteIn, Bool.and_eq_false_iff, decide_eq_false_iff_not] at hp
      omega
    rw [Part.same, Part.same, State.setMem_mem, Memory.read_writeBlock_outside _ hc]
  | _ => exact Iff.rfl

/-- A new register file keeps every part but the registers in which it differs. -/
theorem Part.same_setRegs {r : Vector Byte 16} (hr : ∀ k : Reg, p = .v k → r[k] = s.getV k) :
    p.same s (s.setRegs r) := by
  cases p with
  | v k => exact hr k rfl
  | _ => exact Eq.refl _

@[simp] theorem Part.same_setRegs_loadedRegisters {x : Reg} (hp : p.isRegUpTo x = false) :
    p.same s (s.setRegs (loadedRegisters x s)) := by
  refine Part.same_setRegs fun k hk => ?_
  subst hk
  have hkx : ¬k ≤ x := by simpa [Part.isRegUpTo] using hp
  rw [loadedRegisters_getElem, if_neg hkx]

/-- Replacing the control state keeps every part outside it. -/
theorem Part.same_setControl (n : Fin 17) (a : Word) (hpc : p ≠ .pc) (hsp : p ≠ .sp) :
    p.same s { s with sp := n, pc := a } := by
  cases p with
  | pc => exact absurd rfl hpc
  | sp => exact absurd rfl hsp
  | _ => exact Eq.refl _

/-- A push on the stack keeps every other entry. -/
theorem Part.same_setStack {k : Nat} (hk : k < 16) (a : Word) (hp : p.isStackEntry k = false) :
    p.same s { s with stack := s.stack.set k a hk } := by
  cases p with
  | stack j =>
    have hj : j.val ≠ k := by simpa [Part.isStackEntry] using hp
    exact Vector.getElem_set_ne hk j.isLt hj.symm
  | _ => exact Eq.refl _

/-- The tick writes the timers and `TONE` (R96). -/
theorem Part.same_tick (hdt : p ≠ .dt) (hst : p ≠ .st) (htone : p ≠ .tone) : p.same s (tick t) ↔ p.same s t := by
  cases p with
  | dt => exact absurd rfl hdt
  | st => exact absurd rfl hst
  | tone => exact absurd rfl htone
  | _ => exact Iff.rfl

theorem Part.same_trans (h : p.same s t) (h' : p.same t u) : p.same s u := by
  cases p <;> exact Eq.trans h' h

end FrameRules

end Sys2Proof.Machine

/-! What an execute phase can do, said once: its answer, its frame, and what it leaves in `PC`, memory and VF. -/

namespace Sys2Proof.Machine

section Execute

variable {s t : State}

/-! ## The answers of the instructions that can raise a condition or wait -/

theorem execRet_underflow (h : s.sp = 0) : execRet s = .fault (.stackUnderflow s.pc) :=
  dif_pos (congrArg Fin.val h)

theorem execRet_pop {k : Fin 16} (h : s.sp = k.succ) :
    execRet s = .next { s with sp := k.castSucc, pc := s.stack[k] } := by
  simp [execRet, h]
  rfl

theorem execCall_overflow (nnn : BitVec 12) (h : s.sp = Fin.last 16) :
    execCall nnn s = .fault (.stackOverflow s.pc) :=
  dif_pos (congrArg Fin.val h)

theorem execCall_push (nnn : BitVec 12) {k : Fin 16} (h : s.sp = k.castSucc) :
    execCall nnn s =
      .next { s with stack := s.stack.set k (s.pc + 2), sp := k.succ, pc := nnn.zeroExtend 16 } := by
  simp [execCall, h, k.isLt.ne]
  rfl

theorem execRet_next (h : execRet s = .next t) :
    ∃ k : Fin 16, s.sp = k.succ ∧ t = { s with sp := k.castSucc, pc := s.stack[k] } := by
  obtain h0 | ⟨k, hk⟩ := Fin.eq_zero_or_eq_succ s.sp
  · cases (execRet_underflow h0).symm.trans h
  · exact ⟨k, hk, Host.Outcome.next.inj (h.symm.trans (execRet_pop hk))⟩

theorem execCall_next {nnn : BitVec 12} (h : execCall nnn s = .next t) :
    ∃ k : Fin 16, s.sp = k.castSucc ∧
      t = { s with stack := s.stack.set k (s.pc + 2), sp := k.succ, pc := nnn.zeroExtend 16 } := by
  obtain ⟨k, hk⟩ | h16 := Fin.eq_castSucc_or_eq_last s.sp
  · exact ⟨k, hk, Host.Outcome.next.inj (h.symm.trans (execCall_push nnn hk))⟩
  · cases (execCall_overflow nnn h16).symm.trans h

theorem execSkp_next {x : Reg} (h : execSkp x s = .next t) : ∃ b, t = s.skipIf b := by
  unfold execSkp at h
  split at h
  · next b _ => exact ⟨b, (Host.Outcome.next.inj h).symm⟩
  · cases h

theorem execSknp_next {x : Reg} (h : execSknp x s = .next t) : ∃ b, t = s.skipIf b := by
  unfold execSknp at h
  split at h
  · next b _ => exact ⟨!b, (Host.Outcome.next.inj h).symm⟩
  · cases h

theorem execLdVxK_next {x : Reg} (h : execLdVxK x s = .next t) : t = s ∨ ∃ b, t = (s.setV x b).advance := by
  unfold execLdVxK at h
  split at h
  · exact .inl (Host.Outcome.next.inj h).symm
  · exact .inr ⟨_, (Host.Outcome.next.inj h).symm⟩

theorem execDrw_next {x y : Reg} {n : Nat} (h : execDrw x y n s = .next t) :
    t = ((s.setScreen (drawnSprite x y n s).1).setV 0xF (flagByte (drawnSprite x y n s).2)).advance :=
  (Host.Outcome.next.inj (checkBytes_next h).2).symm

theorem execLdB_next {x : Reg} (h : execLdB x s = .next t) :
    s.i.toNat + 3 ≤ 4096 ∧
      t = (s.setMem (s.mem.writeBlock s.i.toNat (decimalDigits (s.getV x)))).advance := by
  obtain ⟨hb, ht⟩ := checkBytes_next h
  exact ⟨by omega, (Host.Outcome.next.inj ht).symm⟩

theorem execStoreRegs_next {x : Reg} (h : execStoreRegs x s = .next t) :
    s.i.toNat + (x.val + 1) ≤ 4096 ∧
      t = ((s.setMem (s.mem.writeBlock s.i.toNat (registerBlock x s))).setI (indexPast x s)).advance := by
  obtain ⟨hb, ht⟩ := checkBytes_next h
  exact ⟨by omega, (Host.Outcome.next.inj ht).symm⟩

theorem execLoadRegs_next {x : Reg} (h : execLoadRegs x s = .next t) :
    t = ((s.setRegs (loadedRegisters x s)).setI (indexPast x s)).advance :=
  (Host.Outcome.next.inj (checkBytes_next h).2).symm

/-! ## The frame -/

/-- The frame of every execute phase (R20, R22). -/
theorem exec_keeps {i : Instr} (h : exec i s = .next t) : Keeps i s t := by
  intro p hp
  cases i <;> simp only [mayWrite, Bool.or_eq_false_iff, beq_eq_false_iff_ne] at hp
  case ret =>
    obtain ⟨k, -, rfl⟩ := execRet_next h
    exact Part.same_setControl _ _ hp.1 hp.2
  case call nnn =>
    obtain ⟨k, hk, rfl⟩ := execCall_next h
    obtain ⟨hpc, hsp, hst⟩ := hp
    have hother : p.isStackEntry k.val = false := by simpa [hk] using hst
    exact Part.same_trans (Part.same_setStack k.isLt (s.pc + 2) hother) (Part.same_setControl _ _ hpc hsp)
  case skp x =>
    obtain ⟨b, rfl⟩ := execSkp_next h
    simp [hp]
  case sknp x =>
    obtain ⟨b, rfl⟩ := execSknp_next h
    simp [hp]
  case ldVxK x =>
    obtain rfl | ⟨b, rfl⟩ := execLdVxK_next h <;> simp [hp]
  case drw x y n =>
    obtain rfl := execDrw_next h
    simp [hp]
  case ldB x =>
    obtain ⟨-, rfl⟩ := execLdB_next h
    simp [hp]
  case storeRegs x =>
    obtain ⟨-, rfl⟩ := execStoreRegs_next h
    simp [hp]
  case loadRegs x =>
    obtain rfl := execLoadRegs_next h
    simp [hp]
  all_goals
    obtain rfl := Host.Outcome.next.inj h
    simp [hp]

/-! ## The addresses, the memory and the flag that an execute phase can leave -/

/-- The addresses at which the instruction after an execute phase can stand (R94, R110 to R118, R183). -/
inductive PcAfter (s : State) : Word → Prop where
  | wait : PcAfter s s.pc
  | next : PcAfter s (s.pc + 2)
  | skip (taken : Bool) : PcAfter s (s.pc + if taken then 4 else 2)
  | jump (nnn : BitVec 12) : PcAfter s (nnn.zeroExtend 16)
  | jumpV0 (nnn : BitVec 12) (b : Byte) : PcAfter s (nnn.zeroExtend 16 + b.zeroExtend 16)
  | pop (k : Fin 16) (live : k.val < s.sp.val) : PcAfter s s.stack[k]

theorem exec_pcAfter {i : Instr} (h : exec i s = .next t) : PcAfter s t.pc := by
  cases i
  case ret =>
    obtain ⟨k, hk, rfl⟩ := execRet_next h
    exact .pop k (by simp [hk])
  case call nnn =>
    obtain ⟨k, -, rfl⟩ := execCall_next h
    exact .jump nnn
  case jp nnn =>
    obtain rfl := Host.Outcome.next.inj h
    exact .jump nnn
  case jpV0 nnn =>
    obtain rfl := Host.Outcome.next.inj h
    exact .jumpV0 nnn _
  case skp x =>
    obtain ⟨b, rfl⟩ := execSkp_next h
    exact .skip b
  case sknp x =>
    obtain ⟨b, rfl⟩ := execSknp_next h
    exact .skip b
  case seImm | sneImm | seReg | sneReg =>
    obtain rfl := Host.Outcome.next.inj h
    exact .skip _
  case ldVxK x =>
    obtain rfl | ⟨b, rfl⟩ := execLdVxK_next h
    · exact .wait
    · exact .next
  case drw x y n =>
    obtain rfl := execDrw_next h
    exact .next
  case ldB x =>
    obtain ⟨-, rfl⟩ := execLdB_next h
    exact .next
  case storeRegs x =>
    obtain ⟨-, rfl⟩ := execStoreRegs_next h
    exact .next
  case loadRegs x =>
    obtain rfl := execLoadRegs_next h
    exact .next
  all_goals
    obtain rfl := Host.Outcome.next.inj h
    exact .next

/-- Memory after an execute phase: as before, or with one block stored at `I`, inside the 4096 bytes (R56, R57). -/
theorem exec_mem {i : Instr} (h : exec i s = .next t) :
    t.mem = s.mem ∨ ∃ bs : List Byte, s.i.toNat + bs.length ≤ 4096 ∧ t.mem = s.mem.writeBlock s.i.toNat bs := by
  cases i
  case ldB x =>
    obtain ⟨hb, rfl⟩ := execLdB_next h
    exact .inr ⟨decimalDigits (s.getV x), by simpa using hb, rfl⟩
  case storeRegs x =>
    obtain ⟨hb, rfl⟩ := execStoreRegs_next h
    exact .inr ⟨registerBlock x s, by simpa using hb, rfl⟩
  case ret =>
    obtain ⟨k, -, rfl⟩ := execRet_next h
    exact .inl rfl
  case call nnn =>
    obtain ⟨k, -, rfl⟩ := execCall_next h
    exact .inl rfl
  case skp x =>
    obtain ⟨b, rfl⟩ := execSkp_next h
    exact .inl rfl
  case sknp x =>
    obtain ⟨b, rfl⟩ := execSknp_next h
    exact .inl rfl
  case ldVxK x =>
    obtain rfl | ⟨b, rfl⟩ := execLdVxK_next h <;> exact .inl rfl
  case drw x y n =>
    obtain rfl := execDrw_next h
    exact .inl rfl
  case loadRegs x =>
    obtain rfl := execLoadRegs_next h
    exact .inl rfl
  all_goals
    obtain rfl := Host.Outcome.next.inj h
    exact .inl rfl

/-- A flag instruction leaves a flag in VF (R22, R29, R95). -/
theorem exec_flag {i : Instr} (hi : writesFlag i = true) (h : exec i s = .next t) : ∃ b, t.getV 0xF = flagByte b := by
  cases i
  case drw x y n =>
    obtain rfl := execDrw_next h
    exact ⟨_, State.setV_getV_same ..⟩
  case addI x =>
    obtain rfl := Host.Outcome.next.inj h
    exact ⟨_, State.setV_getV_same ..⟩
  case addReg | subReg | shr | subnReg | shl =>
    obtain rfl := Host.Outcome.next.inj h
    exact ⟨_, State.setV_getV_same ..⟩
  all_goals cases hi

theorem mayWrite_flag {i : Instr} (hi : writesFlag i = false) (hx : operandX i ≠ some 0xF) (s : State) :
    mayWrite i s (.v 0xF) = false := by
  have hne {x : Reg} (h : some x ≠ some (0xF : Reg)) : Part.v 0xF ≠ .v x := fun he => h (by rw [Part.v.inj he])
  cases i
  case loadRegs x =>
    have : ¬(0xF : Reg) ≤ x := fun hle => hx (congrArg some (Fin.last_le_iff.mp hle))
    simpa [mayWrite, Part.isRegUpTo] using this
  case ldImm | addImm | ldReg | orReg | andReg | xorReg | rnd | ldVxDt | ldVxK =>
    simpa [mayWrite] using hne hx
  case addReg | subReg | shr | subnReg | shl | addI | drw => cases hi
  all_goals rfl

theorem mayWrite_keys (i : Instr) (s : State) : mayWrite i s .keys = false := by
  cases i <;> rfl

/-- Only `00EE` and `2NNN` write `SP` and the stack (R20). -/
theorem mayWrite_stack {i : Instr} (hret : i ≠ .ret) (hcall : ∀ nnn, i ≠ .call nnn) (s : State) :
    mayWrite i s .sp = false ∧ ∀ k, mayWrite i s (.stack k) = false := by
  cases i
  case ret => exact absurd rfl hret
  case call nnn => exact absurd rfl (hcall nnn)
  all_goals exact ⟨rfl, fun _ => rfl⟩

/-- An execute phase that may write a pixel or the redraw flag sets the flag (R30). -/
theorem exec_draw {i : Instr} (h : exec i s = .next t) :
    t.draw = true ∨ mayWrite i s .draw = false ∧ ∀ x y, mayWrite i s (.pixel x y) = false := by
  cases i
  case cls =>
    obtain rfl := Host.Outcome.next.inj h
    exact .inl rfl
  case drw x y n =>
    obtain rfl := execDrw_next h
    exact .inl rfl
  all_goals exact .inr ⟨rfl, fun _ _ => rfl⟩

end Execute

end Sys2Proof.Machine

/-! What an execute phase does not read: under a change of the parts that its instruction does not see, it answers the
same with that change made. -/

namespace Sys2Proof.Machine

section Unread

/-- A change to the four parts of the state that few instructions read. -/
structure Overlay where
  keys : Vector Bool 16 → Vector Bool 16 := id
  st : Byte → Byte := id
  tone : Bool → Bool := id
  rndIndex : Nat → Nat := id

/-- The state with the change made. -/
def Overlay.apply (o : Overlay) (s : State) : State :=
  { s with keys := o.keys s.keys, st := o.st s.st, tone := o.tone s.tone, rndIndex := o.rndIndex s.rndIndex }

/-- The instruction neither reads nor sets a part that the change touches. -/
structure Overlay.UnusedBy (o : Overlay) (i : Instr) : Prop where
  keys : readsKeys i = true → o.keys = id
  st : ∀ x, i = .ldStVx x → o.st = id
  rndIndex : ∀ x nn, i = .rnd x nn → o.rndIndex = id

variable {o : Overlay}

theorem keyOf_overlay (hk : o.keys = id) (x : Reg) (s : State) : keyOf x (o.apply s) = keyOf x s := by
  unfold keyOf Overlay.apply
  rw [hk]
  rfl

theorem lowestPressed_overlay (hk : o.keys = id) (s : State) : lowestPressed (o.apply s) = lowestPressed s := by
  unfold lowestPressed Overlay.apply
  rw [hk]
  rfl

/-- An execute phase is the same under a change that its instruction does not see. -/
theorem exec_overlay {i : Instr} (h : o.UnusedBy i) (s : State) :
    exec i (o.apply s) = mapNext o.apply (exec i s) := by
  cases i
  case ret =>
    change execRet (o.apply s) = mapNext o.apply (execRet s)
    obtain h0 | ⟨k, hk⟩ := Fin.eq_zero_or_eq_succ s.sp
    · rw [execRet_underflow h0, execRet_underflow (s := o.apply s) h0]
      rfl
    · rw [execRet_pop hk, execRet_pop (s := o.apply s) hk]
      rfl
  case call nnn =>
    change execCall nnn (o.apply s) = mapNext o.apply (execCall nnn s)
    obtain ⟨k, hk⟩ | h16 := Fin.eq_castSucc_or_eq_last s.sp
    · rw [execCall_push nnn hk, execCall_push (s := o.apply s) nnn hk]
      rfl
    · rw [execCall_overflow nnn h16, execCall_overflow (s := o.apply s) nnn h16]
      rfl
  case drw | ldB | storeRegs | loadRegs =>
    simp only [exec, execDrw, execLdB, execStoreRegs, execLoadRegs, mapNext_checkBytes]
    rfl
  case skp x =>
    change execSkp x _ = mapNext _ (execSkp x s)
    unfold execSkp
    rw [keyOf_overlay (h.keys rfl)]
    cases keyOf x s <;> rfl
  case sknp x =>
    change execSknp x _ = mapNext _ (execSknp x s)
    unfold execSknp
    rw [keyOf_overlay (h.keys rfl)]
    cases keyOf x s <;> rfl
  case ldVxK x =>
    change execLdVxK x _ = mapNext _ (execLdVxK x s)
    unfold execLdVxK
    rw [lowestPressed_overlay (h.keys rfl)]
    cases lowestPressed s <;> rfl
  case rnd x nn =>
    have hr := h.rndIndex x nn rfl
    simp only [exec, execRnd, mapNext, Overlay.apply, hr, id]
    rfl
  case ldStVx x =>
    have hs := h.st x rfl
    simp only [exec, execLdStVx, mapNext, Overlay.apply, hs, id]
    rfl
  all_goals rfl

end Unread

end Sys2Proof.Machine

/-! The statements about the state (spec/10_state.md). -/

namespace Sys2Proof.Machine

/-! ## The invariant -/

/-- Every stack entry in use is two past an address that can be fetched from (R34): the third part of `Inv`. -/
def StackBounded (s : State) : Prop :=
  ∀ k : Fin 16, k.val < s.sp.val → 2 ≤ (s.stack[k]).toNat ∧ (s.stack[k]).toNat ≤ 0x1000

theorem inv_iff {s : State} : Inv s ↔ s.mem.wf ∧ s.pc.toNat ≤ 0x10FE ∧ StackBounded s := Iff.rfl

/-- An address that an execute phase leaves in `PC` after a fetch is at most 0xFFF + 0xFF, the highest that `BNNN`
reaches (R26). -/
theorem PcAfter.le {s : State} {a : Word} (h : PcAfter s a) (hpc : s.pc.toNat ≤ 0xFFE) (hst : StackBounded s) :
    a.toNat ≤ 0x10FE := by
  cases h with
  | wait => omega
  | next => bv_omega
  | skip taken => split <;> bv_omega
  | jump nnn => bv_omega
  | jumpV0 nnn b => bv_omega
  | pop k live => exact (hst k live).2.trans (by omega)

/-- After a fetch, the entry that `2NNN` pushes is in range, and every other entry in use was in use before. -/
theorem exec_stackBounded {i : Instr} {s t : State} (h : exec i s = .next t) (hpc : s.pc.toNat ≤ 0xFFE)
    (hst : StackBounded s) : StackBounded t := by
  intro k hk
  by_cases hret : i = .ret
  · subst hret
    obtain ⟨j, hj, rfl⟩ := execRet_next h
    have hlt : k.val < j.val := hk
    exact hst k (by rw [hj, Fin.val_succ]; omega)
  by_cases hcall : ∃ nnn, i = .call nnn
  · obtain ⟨nnn, rfl⟩ := hcall
    obtain ⟨j, hj, rfl⟩ := execCall_next h
    by_cases hkj : j.val = k.val
    · have hpush : (s.stack.set j (s.pc + 2))[k] = s.pc + 2 := by simp [hkj]
      simp only [hpush]
      bv_omega
    · have hold : (s.stack.set j (s.pc + 2))[k] = s.stack[k] := Vector.getElem_set_ne j.isLt k.isLt hkj
      have hle : k.val < j.val + 1 := hk
      simp only [hold]
      exact hst k (by rw [hj, Fin.val_castSucc]; omega)
  · obtain ⟨hsp, hentry⟩ := mayWrite_stack hret (fun nnn hi => hcall ⟨nnn, hi⟩) s
    have hsp : t.sp = s.sp := exec_keeps h .sp hsp
    have hentry : t.stack[k] = s.stack[k] := exec_keeps h (.stack k) (hentry k)
    rw [hentry]
    exact hst k (hsp ▸ hk)

theorem exec_mem_wf {i : Instr} {s t : State} (h : exec i s = .next t) (hm : s.mem.wf) : t.mem.wf := by
  obtain he | ⟨bs, hb, he⟩ := exec_mem h
  · rwa [he]
  · rw [he]
    exact Memory.writeBlock_wf hm hb

/-- After a fetch, the execute phase keeps the invariant. -/
theorem exec_inv {i : Instr} {s t : State} (hs : Inv s) (hpc : s.pc.toNat ≤ 0xFFE) (h : exec i s = .next t) :
    Inv t := by
  obtain ⟨hm, -, hst⟩ := inv_iff.mp hs
  exact inv_iff.mpr ⟨exec_mem_wf h hm, (exec_pcAfter h).le hpc hst, exec_stackBounded h hpc hst⟩

/-- The tick writes no part of the state that the invariant speaks of. -/
theorem inv_tick {s : State} : Inv (tick s) ↔ Inv s := Iff.rfl

/-- Settles O49: the fetch bounds `PC`, the execute phase keeps the invariant, and so does the tick. -/
theorem stepKeepsTheInvariant : Obligations.StepKeepsTheInvariant := by
  intro s t hs h
  obtain ⟨i, u, hf, hu, rfl⟩ := step_next_iff.mp h
  exact inv_tick.mpr (exec_inv hs (fetchDecode_ok_iff.mp hf).1 hu)

/-- Settles O50: both host moves that write memory write a block that fits. -/
theorem hostMovesKeepTheInvariant : Obligations.HostMovesKeepTheInvariant := by
  intro m s t hs h
  obtain ⟨hm, hpc, hst⟩ := hs
  cases m with
  | initializeFont font =>
    obtain rfl := Host.Outcome.next.inj h
    exact ⟨Memory.writeBlock_wf hm (by simp), by simp [hostInitializeWith], hst⟩
  | loadProgram bytes =>
    simp only [hostMove, hostLoadProgram] at h
    split at h
    · cases h
    · next hfit =>
      obtain rfl := Host.Outcome.next.inj h
      exact ⟨Memory.writeBlock_wf hm (by omega), hpc, hst⟩
  | clearRedraw =>
    obtain rfl := Host.Outcome.next.inj h
    exact ⟨hm, hpc, hst⟩
  | keys k =>
    obtain rfl := Host.Outcome.next.inj h
    exact ⟨hm, hpc, hst⟩

/-- Power-on has the invariant: its memory is one block of 80 bytes and no stack entry is in use. -/
theorem inv_powerOn : Inv State.powerOn :=
  ⟨Memory.writeBlock_wf ⟨.nil, by simp⟩ (by simp), by decide, fun k hk => absurd hk k.val.not_lt_zero⟩

/-- Settles O51, by induction on the run. -/
theorem reachableStatesHaveTheInvariant : Obligations.ReachableStatesHaveTheInvariant := by
  intro s hs
  induction hs with
  | powerOn => exact inv_powerOn
  | step _ h ih => exact stepKeepsTheInvariant _ _ ih h
  | host m _ h ih => exact hostMovesKeepTheInvariant m _ _ ih h

/-! ## Frames -/

/-- Settles O11. -/
theorem executeWritesOnlyItsOwnParts : Obligations.ExecuteWritesOnlyItsOwnParts :=
  fun _ _ _ h => exec_keeps h

/-- Settles O12: the frame of the execute phase, and the tick writes only the timers and `TONE`. -/
theorem stepWritesOnlyItsOwnPartsAndTimers : Obligations.StepWritesOnlyItsOwnPartsAndTimers := by
  intro i s t hf h p hdt hst htone hp
  obtain ⟨j, u, hj, hu, rfl⟩ := step_next_iff.mp h
  obtain rfl : i = j := Except.ok.inj (hf.symm.trans hj)
  exact (Part.same_tick hdt hst htone).mpr (exec_keeps hu p hp)

/-- Settles O13: a flag instruction leaves a flag byte, and the frame of any other leaves VF out. -/
theorem flagRegisterIsWrittenByFlagInstructions : Obligations.FlagRegisterIsWrittenByFlagInstructions := by
  refine fun i s t h => ⟨fun hi => ?_, fun hi hx => exec_keeps h (.v 0xF) (mayWrite_flag hi hx s)⟩
  obtain ⟨b, hb⟩ := exec_flag hi h
  rw [hb]
  cases b
  · exact .inl rfl
  · exact .inr rfl

/-- Settles O44: the frame keeps the keys, and what may write a pixel or the flag sets the flag. -/
theorem engineKeepsKeysAndRedrawFlag : Obligations.EngineKeepsKeysAndRedrawFlag := by
  intro s t h
  obtain ⟨i, u, -, hu, rfl⟩ := step_next_iff.mp h
  have hkeep := exec_keeps hu
  refine ⟨hkeep .keys (mayWrite_keys i s), ?_⟩
  obtain hd | ⟨hd, hpx⟩ := exec_draw hu
  · exact ⟨fun _ => hd, fun _ => hd⟩
  · have hdraw : u.draw = s.draw := hkeep .draw hd
    have hfb : u.fb = s.fb := Framebuffer.ext_pixel fun x y => hkeep (.pixel x y) (hpx x y)
    exact ⟨hdraw.trans, fun hne => absurd hfb hne⟩

/-! ## The stack and the fetch -/

/-- Settles O17: the call pushes P + 2 on top, and the return pops the top entry. -/
theorem returnUndoesCall : Obligations.ReturnUndoesCall := by
  intro nnn s t u h hstack hsp
  obtain ⟨k, hk, rfl⟩ := execCall_next h
  have htop : u.stack[k] = s.pc + 2 := by
    rw [hstack]
    exact Vector.getElem_set_self k.isLt
  exact ⟨_, execRet_pop hsp, htop, hk.symm⟩

/-- Settles O8: the fetch raises the condition, and the step ends with it. -/
theorem fetchPastMemoryIsOutOfBounds : Obligations.FetchPastMemoryIsOutOfBounds := by
  intro s h
  have hf : fetchDecode s = .error (.outOfBounds s.pc.toNat) := by rw [fetchDecode, fetchWord_fault h]
  rw [step, hf]
  rfl

/-! ## What an execute phase does not read -/

/-- Settles O45. -/
theorem onlyKeyInstructionsReadKeys : Obligations.OnlyKeyInstructionsReadKeys := fun _ s keys hi =>
  exec_overlay (o := { keys := fun _ => keys })
    ⟨fun h => by simp [hi] at h, fun _ _ => rfl, fun _ _ _ => rfl⟩ s

/-- Settles O46. -/
theorem onlyRandomInstructionReadsRandomBytes : Obligations.OnlyRandomInstructionReadsRandomBytes := fun _ s n hi =>
  exec_overlay (o := { rndIndex := fun _ => n })
    ⟨fun _ => rfl, fun _ _ => rfl, fun x nn h => absurd h (hi x nn)⟩ s

/-- Settles O47. -/
theorem noInstructionReadsTheSoundTimer : Obligations.NoInstructionReadsTheSoundTimer := fun _ s st tone hi =>
  exec_overlay (o := { st := fun _ => st, tone := fun _ => tone })
    ⟨fun _ => rfl, fun x h => absurd h (hi x), fun _ _ _ => rfl⟩ s

end Sys2Proof.Machine

namespace Sys2Proof

/-! ## The fields of a word, in its two bytes (R53) -/

theorem toNat_highNibble (b : Byte) : (b.extractLsb' 4 4).toNat = b.toNat / 16 := by
  rw [BitVec.extractLsb'_toNat, Nat.shiftRight_eq_div_pow]
  omega

theorem toNat_lowNibble (b : Byte) : (b.extractLsb' 0 4).toNat = b.toNat % 16 := BitVec.extractLsb'_toNat 0 4 b

theorem toNat_wordOfBytes (hi lo : Byte) : (wordOfBytes hi lo).toNat = hi.toNat * 256 + lo.toNat := by
  rw [wordOfBytes, BitVec.toNat_append, ← Nat.shiftLeft_add_eq_or_of_lt lo.isLt, Nat.shiftLeft_eq]

theorem opField_wordOfBytes (hi lo : Byte) : opField (wordOfBytes hi lo) = hi.extractLsb' 4 4 := slice_high hi lo 4 4

theorem xBits_wordOfBytes (hi lo : Byte) : xBits (wordOfBytes hi lo) = hi.extractLsb' 0 4 := slice_high hi lo 0 4

theorem yBits_wordOfBytes (hi lo : Byte) : yBits (wordOfBytes hi lo) = lo.extractLsb' 4 4 :=
  slice_low hi lo (by omega)

theorem nField_wordOfBytes (hi lo : Byte) : nField (wordOfBytes hi lo) = lo.extractLsb' 0 4 :=
  slice_low hi lo (by omega)

theorem nnField_wordOfBytes (hi lo : Byte) : nnField (wordOfBytes hi lo) = lo :=
  (slice_low hi lo (by omega)).trans (slice_whole lo)

theorem Reg.val_ofBits (b : BitVec 4) : (Reg.ofBits b).val = b.toNat := rfl

end Sys2Proof

namespace Sys2Proof.Machine

/-- Settles O7: the fetch joins the two bytes, and each field of the word is a nibble or the whole of one of them. -/
theorem fetchIsBigEndian : Obligations.FetchIsBigEndian := by
  intro s h
  refine ⟨_, fetchWord_ok h, toNat_wordOfBytes _ _, ?op, ?x, ?y, ?n, nnField_wordOfBytes _ _⟩
  case op => rw [opField_wordOfBytes, toNat_highNibble]
  case x => rw [xField, Reg.val_ofBits, xBits_wordOfBytes, toNat_lowNibble]
  case y => rw [yField, Reg.val_ofBits, yBits_wordOfBytes, toNat_highNibble]
  case n => rw [nField_wordOfBytes, toNat_lowNibble]

end Sys2Proof.Machine

/-! The instruction that a word of a row stands for, and the decoder as the inverse of the encoder (R74 to R76). -/

namespace Sys2Proof

/-- The instruction of the row of `i` with the operands that the fields of `w` give (R71, R76). -/
def Instr.withFields : Instr → Word → Instr
  | .cls, _ => .cls
  | .ret, _ => .ret
  | .jp _, w => .jp (nnnField w)
  | .call _, w => .call (nnnField w)
  | .seImm _ _, w => .seImm (xField w) (nnField w)
  | .sneImm _ _, w => .sneImm (xField w) (nnField w)
  | .seReg _ _, w => .seReg (xField w) (yField w)
  | .ldImm _ _, w => .ldImm (xField w) (nnField w)
  | .addImm _ _, w => .addImm (xField w) (nnField w)
  | .ldReg _ _, w => .ldReg (xField w) (yField w)
  | .orReg _ _, w => .orReg (xField w) (yField w)
  | .andReg _ _, w => .andReg (xField w) (yField w)
  | .xorReg _ _, w => .xorReg (xField w) (yField w)
  | .addReg _ _, w => .addReg (xField w) (yField w)
  | .subReg _ _, w => .subReg (xField w) (yField w)
  | .shr _ _, w => .shr (xField w) (yField w)
  | .subnReg _ _, w => .subnReg (xField w) (yField w)
  | .shl _ _, w => .shl (xField w) (yField w)
  | .sneReg _ _, w => .sneReg (xField w) (yField w)
  | .ldI _, w => .ldI (nnnField w)
  | .jpV0 _, w => .jpV0 (nnnField w)
  | .rnd _ _, w => .rnd (xField w) (nnField w)
  | .drw _ _ _, w => .drw (xField w) (yField w) (nField w).toNat
  | .skp _, w => .skp (xField w)
  | .sknp _, w => .sknp (xField w)
  | .ldVxDt _, w => .ldVxDt (xField w)
  | .ldVxK _, w => .ldVxK (xField w)
  | .ldDtVx _, w => .ldDtVx (xField w)
  | .ldStVx _, w => .ldStVx (xField w)
  | .addI _, w => .addI (xField w)
  | .ldF _, w => .ldF (xField w)
  | .ldB _, w => .ldB (xField w)
  | .storeRegs _, w => .storeRegs (xField w)
  | .loadRegs _, w => .loadRegs (xField w)

@[simp] theorem Instr.row_withFields (i : Instr) (w : Word) : (i.withFields w).row = i.row := by
  cases i <;> rfl

theorem nField_toNat_le (w : Word) : (nField w).toNat ≤ 15 := Nat.le_of_lt_succ (nField w).isLt

@[simp] theorem Instr.wellFormed_withFields (i : Instr) (w : Word) : (i.withFields w).wellFormed = true := by
  cases i with
  | drw => exact decide_eq_true (nField_toNat_le w)
  | _ => rfl

/-! ## A word is a format of its own fields -/

theorem formatNNN_of_fields {w : Word} {op : BitVec 4} (hop : opField w = op) : formatNNN op (nnnField w) = w := by
  rw [← hop, formatNNN_fields]

theorem formatXNN_of_op {w : Word} {op : BitVec 4} (hop : opField w = op) :
    formatXNN op (xField w) (nnField w) = w := by
  rw [← hop, formatXNN_fields]

theorem formatXNN_of_fields {w : Word} {op : BitVec 4} {nn : Byte} (hf : opField w = op ∧ nnField w = nn) :
    formatXNN op (xField w) nn = w := by
  rw [← hf.1, ← hf.2, formatXNN_fields]

theorem formatXYN_of_fields {w : Word} {op n : BitVec 4} (hf : opField w = op ∧ nField w = n) :
    formatXYN op (xField w) (yField w) n = w := by
  rw [← hf.1, ← hf.2, formatXYN_fields]

theorem encode_drw_of_op {w : Word} (hop : opField w = 0xD) :
    encode (.drw (xField w) (yField w) (nField w).toNat) = w :=
  formatXYN_of_fields ⟨hop, by simp⟩

/-- A word in a row (R76) is the encoding of the row's instruction with the word's fields as operands. -/
theorem encode_withFields {i : Instr} {w : Word} (h : w &&& i.row.mask = i.row.value) :
    encode (i.withFields w) = w := by
  cases i with
  | cls | ret => exact h.symm.trans (BitVec.and_allOnes (x := w))
  | jp | call | ldI | jpV0 => exact formatNNN_of_fields ((and_F000_iff w _).mp h)
  | seImm | sneImm | ldImm | addImm | rnd => exact formatXNN_of_op ((and_F000_iff w _).mp h)
  | drw => exact encode_drw_of_op ((and_F000_iff w _).mp h)
  | seReg | ldReg | orReg | andReg | xorReg | addReg | subReg | shr | subnReg | shl | sneReg =>
    exact formatXYN_of_fields ((and_F00F_iff w _ _).mp h)
  | skp | sknp | ldVxDt | ldVxK | ldDtVx | ldStVx | addI | ldF | ldB | storeRegs | loadRegs =>
    exact formatXNN_of_fields ((and_F0FF_iff w _ _).mp h)

/-! ## Decoding what was encoded -/

/-- The decoder finds in the fields of an encoded word what the encoder's format put there. -/
theorem decodeWord_encode {i : Instr} (hi : i.wellFormed = true) : decodeWord (encode i) = some i := by
  cases i with
  | cls | ret => rfl
  | drw x y n =>
    have hn : n < 16 := Nat.lt_succ_of_le (of_decide_eq_true hi)
    simp [encode, decodeWord, Nat.mod_eq_of_lt hn]
  | ldReg | orReg | andReg | xorReg | addReg | subReg | shr | subnReg | shl => simp [encode, decodeWord, decodeFamily8]
  | skp | sknp => simp [encode, decodeWord, decodeFamilyE]
  | ldVxDt | ldVxK | ldDtVx | ldStVx | addI | ldF | ldB | storeRegs | loadRegs =>
    simp [encode, decodeWord, decodeFamilyF]
  | _ => simp [encode, decodeWord]

/-! ## Encoding what was decoded -/

theorem encode_of_decodeFamily8 {w : Word} {i : Instr} (hop : opField w = 0x8) (h : decodeFamily8 w = some i) :
    encode i = w ∧ i.wellFormed = true := by
  unfold decodeFamily8 at h
  split at h <;> cases h <;> next hn => exact ⟨formatXYN_of_fields ⟨hop, hn⟩, rfl⟩

theorem encode_of_decodeFamilyE {w : Word} {i : Instr} (hop : opField w = 0xE) (h : decodeFamilyE w = some i) :
    encode i = w ∧ i.wellFormed = true := by
  unfold decodeFamilyE at h
  split at h <;> cases h <;> next hnn => exact ⟨formatXNN_of_fields ⟨hop, hnn⟩, rfl⟩

theorem encode_of_decodeFamilyF {w : Word} {i : Instr} (hop : opField w = 0xF) (h : decodeFamilyF w = some i) :
    encode i = w ∧ i.wellFormed = true := by
  unfold decodeFamilyF at h
  split at h <;> cases h <;> next hnn => exact ⟨formatXNN_of_fields ⟨hop, hnn⟩, rfl⟩

/-- A word that decodes is the encoding of a well-formed instruction, whichever arm of the decoder answered. -/
theorem encode_of_decodeWord {w : Word} {i : Instr} (h : decodeWord w = some i) :
    encode i = w ∧ i.wellFormed = true := by
  unfold decodeWord at h
  split at h
  -- Family 0: the two whole words.
  case h_1 =>
    split at h
    · next hw => cases h; exact ⟨hw.symm, rfl⟩
    · split at h
      · next hw => cases h; exact ⟨hw.symm, rfl⟩
      · cases h
  -- Families 5 and 9: the low nibble is 0.
  case h_6 hop | h_10 hop =>
    split at h
    · next hn => cases h; exact ⟨formatXYN_of_fields ⟨hop, hn⟩, rfl⟩
    · cases h
  case h_9 hop => exact encode_of_decodeFamily8 hop h
  case h_15 hop => exact encode_of_decodeFamilyE hop h
  case h_16 hop => exact encode_of_decodeFamilyF hop h
  case h_17 => cases h
  all_goals cases h
  -- Families 1, 2, A and B: format NNN.
  case h_2 hop | h_3 hop | h_11 hop | h_12 hop => exact ⟨formatNNN_of_fields hop, rfl⟩
  -- Families 3, 4, 6, 7 and C: format XNN.
  case h_4 hop | h_5 hop | h_7 hop | h_8 hop | h_13 hop => exact ⟨formatXNN_of_op hop, rfl⟩
  case h_14 hop => exact ⟨encode_drw_of_op hop, decide_eq_true (nField_toNat_le w)⟩

/-- The encoder puts every instruction in its row: the laws of Laws/PerInstr.lean, gathered. -/
theorem encode_inRow : ∀ i : Instr, encode i &&& i.row.mask = i.row.value
  | .cls => Laws.EncodesInRow.cls
  | .ret => Laws.EncodesInRow.ret
  | .jp nnn => Laws.EncodesInRow.jp nnn
  | .call nnn => Laws.EncodesInRow.call nnn
  | .seImm x nn => Laws.EncodesInRow.seImm x nn
  | .sneImm x nn => Laws.EncodesInRow.sneImm x nn
  | .seReg x y => Laws.EncodesInRow.seReg x y
  | .ldImm x nn => Laws.EncodesInRow.ldImm x nn
  | .addImm x nn => Laws.EncodesInRow.addImm x nn
  | .ldReg x y => Laws.EncodesInRow.ldReg x y
  | .orReg x y => Laws.EncodesInRow.orReg x y
  | .andReg x y => Laws.EncodesInRow.andReg x y
  | .xorReg x y => Laws.EncodesInRow.xorReg x y
  | .addReg x y => Laws.EncodesInRow.addReg x y
  | .subReg x y => Laws.EncodesInRow.subReg x y
  | .shr x y => Laws.EncodesInRow.shr x y
  | .subnReg x y => Laws.EncodesInRow.subnReg x y
  | .shl x y => Laws.EncodesInRow.shl x y
  | .sneReg x y => Laws.EncodesInRow.sneReg x y
  | .ldI nnn => Laws.EncodesInRow.ldI nnn
  | .jpV0 nnn => Laws.EncodesInRow.jpV0 nnn
  | .rnd x nn => Laws.EncodesInRow.rnd x nn
  | .drw x y n => Laws.EncodesInRow.drw x y n
  | .skp x => Laws.EncodesInRow.skp x
  | .sknp x => Laws.EncodesInRow.sknp x
  | .ldVxDt x => Laws.EncodesInRow.ldVxDt x
  | .ldVxK x => Laws.EncodesInRow.ldVxK x
  | .ldDtVx x => Laws.EncodesInRow.ldDtVx x
  | .ldStVx x => Laws.EncodesInRow.ldStVx x
  | .addI x => Laws.EncodesInRow.addI x
  | .ldF x => Laws.EncodesInRow.ldF x
  | .ldB x => Laws.EncodesInRow.ldB x
  | .storeRegs x => Laws.EncodesInRow.storeRegs x
  | .loadRegs x => Laws.EncodesInRow.loadRegs x

/-! ## The opcode map -/

theorem Instr.row_mem_opcodeMap (i : Instr) : i.row ∈ opcodeMap := by
  cases i <;> simp [opcodeMap, rowSamples, rowSamplesLow, rowSamplesMid, rowSamplesHigh, Instr.row]

theorem exists_instr_of_mem_opcodeMap {row : OpcodeRow} (h : row ∈ opcodeMap) : ∃ i : Instr, i.row = row :=
  (List.exists_of_mem_map h).imp fun _ hi => hi.2

/-- A word that decodes is in the row of its instruction. -/
theorem inRow_of_decodeWord {w : Word} {i : Instr} (h : decodeWord w = some i) : w &&& i.row.mask = i.row.value := by
  obtain ⟨hw, -⟩ := encode_of_decodeWord h
  rw [← hw, encode_inRow]

/-- A word in the row of `i` decodes to the instruction of that row with the word's fields. -/
theorem decodeWord_of_inRow {i : Instr} {w : Word} (h : w &&& i.row.mask = i.row.value) :
    decodeWord w = some (i.withFields w) := by
  have hd := decodeWord_encode (i.wellFormed_withFields w)
  rwa [encode_withFields h] at hd

/-- A word in no row of the map does not decode (R78). -/
theorem decodeWord_eq_none {w : Word} (h : ∀ row ∈ opcodeMap, w &&& row.mask ≠ row.value) : decodeWord w = none :=
  Option.eq_none_iff_forall_ne_some.mpr fun i hi => h i.row i.row_mem_opcodeMap (inRow_of_decodeWord hi)

end Sys2Proof

namespace Sys2Proof.Machine

/-- Every row of R76 is encoded as its instruction with the fields of the word. -/
theorem encodedAs_withFields (i : Instr) : EncodedAs i.row.value i.row.mask i.withFields := fun w =>
  ⟨decodeWord_of_inRow, fun h => by simpa using inRow_of_decodeWord h⟩

theorem fetchDecode_unknown {s : State} (hpc : s.pc.toNat ≤ 0xFFE) (h : decodeWord (wordAtPc s) = none) :
    fetchDecode s = .error (.unknownInstruction (wordAtPc s)) := by
  rw [fetchDecode, fetchWord_ok hpc, ← wordAtPc]
  simp only [h]

/-! ## The statements about the encoding (spec/30_encoding.md) -/

/-- Settles O2: the two bytes are the encoded word, and the decoder inverts the encoder. -/
theorem decodeOfEncodeIsTheInstruction : Obligations.DecodeOfEncodeIsTheInstruction := by
  intro i rest hi
  simp [encodeBytes, decode, decodeWord_encode hi]

/-- Settles O3. -/
theorem encodeOfDecodeIsTheWord : Obligations.EncodeOfDecodeIsTheWord := fun _ _ => encode_of_decodeWord

/-- Settles O4. -/
theorem decodeFollowsTheOpcodeMap : Obligations.DecodeFollowsTheOpcodeMap := by
  refine ⟨fun w i h => ⟨i.row_mem_opcodeMap, inRow_of_decodeWord h⟩, fun row hrow w h => ?_⟩
  obtain ⟨i, rfl⟩ := exists_instr_of_mem_opcodeMap hrow
  exact ⟨i.withFields w, (encodedAs_withFields i w).mp h, i.row_withFields w⟩

/-- Settles O5. -/
theorem unmatchedWordRaisesUnknownInstruction : Obligations.UnmatchedWordRaisesUnknownInstruction := by
  intro s hpc h
  rw [step, fetchDecode_unknown hpc (decodeWord_eq_none h)]
  rfl

/-- Settles O1: each word is closed, so the decoder computes its answer. -/
theorem wordsDecodeAsTheEncodingsSay : Obligations.WordsDecodeAsTheEncodingsSay := by
  unfold Obligations.WordsDecodeAsTheEncodingsSay
  decide

end Sys2Proof.Machine

/-! What a step answers: the condition that the table of R200 gives, or a next state. -/

namespace Sys2Proof.Machine

/-! ## A step from its fetched instruction -/

theorem step_of_fetchDecode {s : State} {i : Instr} (h : fetchDecode s = .ok i) : step s = endStep (exec i s) := by
  rw [step, h]

theorem step_of_exec_next {s u : State} {i : Instr} (h : fetchDecode s = .ok i) (hu : exec i s = .next u) :
    step s = .next (tick u) :=
  step_next_iff.mpr ⟨i, u, h, hu, rfl⟩

theorem step_of_exec_fault {s : State} {i : Instr} {f : Fault} (h : fetchDecode s = .ok i)
    (hf : exec i s = .fault f) : step s = .fault f := by
  rw [step_of_fetchDecode h, hf]
  rfl

/-- Two bytes decode exactly where their word does. -/
theorem decode_pair_ok_iff {hi lo : Byte} {i : Instr} :
    decode [hi, lo] = .ok (i, []) ↔ decodeWord (wordOfBytes hi lo) = some i := by
  cases h : decodeWord (wordOfBytes hi lo) <;> simp [decode, h]

/-! ## The answer that a table of conditions asks for -/

/-- The outcome is the condition where there is one, and a next state where there is none. -/
def AnswersAs : Option Fault → Result → Prop
  | some f, r => r = .fault f
  | none, r => ∃ t, r = .next t

theorem answersAs_none (t : State) : AnswersAs none (.next t) := ⟨t, rfl⟩

theorem answersAs_ite {c : Prop} [Decidable c] {f : Fault} {r : Result} (hc : c → r = .fault f)
    (hn : ¬c → ∃ t, r = .next t) : AnswersAs (if c then some f else none) r := by
  split
  · next h => exact hc h
  · next h => exact hn h

/-- The end of a step keeps a condition, and a next state stays one. -/
theorem AnswersAs.endStep {o : Option Fault} {r : Result} (h : AnswersAs o r) : AnswersAs o (endStep r) := by
  cases o with
  | some f =>
    obtain rfl : r = .fault f := h
    exact Eq.refl _
  | none =>
    obtain ⟨t, rfl⟩ := h
    exact answersAs_none (tick t)

/-- An instruction that goes on with a key's level, and raises the condition of its lookup, answers as R181 and R182
tabulate: a condition exactly for a key index above 15 (D21). -/
theorem answersAs_of_keyOf {x : Reg} {s : State} {r : Result} (hok : ∀ b, keyOf x s = .ok b → ∃ t, r = .next t)
    (herr : ∀ f, keyOf x s = .error f → r = .fault f) :
    AnswersAs (if 15 < (s.getV x).toNat then some (.outOfBounds (s.getV x).toNat) else none) r :=
  answersAs_ite (fun h => herr _ (keyOf_fault h)) fun h =>
    hok _ (keyOf_ok (k := ⟨(s.getV x).toNat, by omega⟩) rfl)

theorem execSkp_answers (x : Reg) (s : State) : AnswersAs (executeFault (.skp x) s) (execSkp x s) :=
  answersAs_of_keyOf (fun b h => ⟨s.skipIf b, by rw [execSkp, h]⟩) fun f h => by rw [execSkp, h]; rfl

theorem execSknp_answers (x : Reg) (s : State) : AnswersAs (executeFault (.sknp x) s) (execSknp x s) :=
  answersAs_of_keyOf (fun b h => ⟨s.skipIf (!b), by rw [execSknp, h]⟩) fun f h => by rw [execSknp, h]; rfl

theorem execLdVxK_completes (x : Reg) (s : State) : ∃ t, execLdVxK x s = .next t := by
  unfold execLdVxK
  split <;> exact ⟨_, rfl⟩

/-- Every execute phase raises the condition that R200 tabulates for its instruction, and no other (R99, D31). -/
theorem exec_answers (i : Instr) (s : State) : AnswersAs (executeFault i s) (exec i s) := by
  cases i
  case ret =>
    exact answersAs_ite (fun h => execRet_underflow (Fin.ext h)) fun h => ⟨_, dif_neg h⟩
  case call nnn =>
    exact answersAs_ite (fun h => execCall_overflow nnn (Fin.ext h)) fun h => ⟨_, dif_neg h⟩
  case drw x y n =>
    exact answersAs_ite (fun h => checkBytes_fault _ h.1 (by omega)) fun h => ⟨_, checkBytes_ok _ (by omega)⟩
  case ldB x =>
    exact answersAs_ite (fun h => checkBytes_fault _ (by omega) (by omega)) fun h => ⟨_, checkBytes_ok _ (by omega)⟩
  case storeRegs x | loadRegs x =>
    exact answersAs_ite (fun h => checkBytes_fault _ (by omega) (by omega)) fun h => ⟨_, checkBytes_ok _ (by omega)⟩
  case skp x => exact execSkp_answers x s
  case sknp x => exact execSknp_answers x s
  case ldVxK x => exact execLdVxK_completes x s
  all_goals exact answersAs_none _

/-- Every step answers as the table of R200 says, in the order of R99: fetch, decode, execute. -/
theorem step_answers (s : State) : AnswersAs (tabulatedFault s) (step s) := by
  unfold tabulatedFault
  by_cases hpc : 0xFFE < s.pc.toNat
  · rw [if_pos hpc]
    exact fetchPastMemoryIsOutOfBounds s hpc
  · rw [if_neg hpc]
    have hle : s.pc.toNat ≤ 0xFFE := Nat.le_of_not_lt hpc
    cases hd : decodeWord (wordAtPc s) with
    | none =>
      have hstep : step s = .fault (.unknownInstruction (wordAtPc s)) := by
        rw [step, fetchDecode_unknown hle hd]
        rfl
      exact hstep
    | some i =>
      rw [step_of_fetchDecode (fetchDecode_ok_iff.mpr ⟨hle, hd⟩)]
      exact (exec_answers i s).endStep

end Sys2Proof.Machine

/-! Runs on which every step only ticks: a jump to itself (R101) and a key wait with no key down (R100). -/

namespace Sys2Proof.Machine

/-! ## Many ticks -/

theorem tick_iterate_dt (n : Nat) (s : State) : (tick^[n] s).dt.toNat = s.dt.toNat - n := by
  induction n with
  | zero => rfl
  | succ n ih =>
    rw [Function.iterate_succ_apply', tick_dt, countDown_toNat, ih]
    omega

theorem tick_iterate_st (n : Nat) (s : State) : (tick^[n] s).st.toNat = s.st.toNat - n := by
  induction n with
  | zero => rfl
  | succ n ih =>
    rw [Function.iterate_succ_apply', tick_st, countDown_toNat, ih]
    omega

/-- Any number of ticks write the timers and `TONE` and nothing else. -/
theorem tick_iterate_frame (n : Nat) (s : State) :
    tick^[n] s = { s with dt := (tick^[n] s).dt, st := (tick^[n] s).st, tone := (tick^[n] s).tone } := by
  induction n generalizing s with
  | zero => rfl
  | succ n ih => exact ih (tick s)

theorem tick_iterate_pc (n : Nat) (s : State) : (tick^[n] s).pc = s.pc := by
  rw [tick_iterate_frame]

/-! ## Runs -/

theorem run_succ {s t : State} (h : step s = .next t) (n : Nat) : core.run (n + 1) s = core.run n t := by
  have hs : core.step s = .next t := h
  simp only [Host.Core.run, hs]

/-- From a state where each step is a tick to such a state again, a run is ticks alone. -/
theorem run_eq_tick_iterate {P : State → Prop} (hstep : ∀ s, P s → step s = .next (tick s))
    (htick : ∀ s, P s → P (tick s)) (n : Nat) {s : State} (hs : P s) : core.run n s = .next (tick^[n] s) := by
  induction n generalizing s with
  | zero => rfl
  | succ n ih => exact (run_succ (hstep s hs) n).trans (ih (htick s hs))

/-- The instruction at `PC` is a jump to `PC`. -/
structure AtSelfJump (nnn : BitVec 12) (s : State) : Prop where
  fetched : fetchDecode s = .ok (.jp nnn)
  target : nnn.toNat = s.pc.toNat

theorem AtSelfJump.step_eq {nnn : BitVec 12} {s : State} (h : AtSelfJump nnn s) : step s = .next (tick s) := by
  have hpc : nnn.zeroExtend 16 = s.pc := by
    have := h.target
    bv_omega
  have hexec : exec (.jp nnn) s = .next (s.jump s.pc) := by rw [← hpc]; rfl
  exact step_of_exec_next h.fetched hexec

theorem AtSelfJump.tick {nnn : BitVec 12} {s : State} (h : AtSelfJump nnn s) : AtSelfJump nnn (tick s) :=
  ⟨h.fetched, h.target⟩

/-- The instruction at `PC` waits for a key and no key is down. -/
structure AtKeyWait (x : Reg) (s : State) : Prop where
  fetched : fetchDecode s = .ok (.ldVxK x)
  released : ∀ k : Fin 16, s.keys[k] = false

theorem AtKeyWait.step_eq {x : Reg} {s : State} (h : AtKeyWait x s) : step s = .next (tick s) := by
  have hexec : execLdVxK x s = .next s := by rw [execLdVxK, lowestPressed_eq_none_iff.mpr h.released]
  exact step_of_exec_next h.fetched hexec

theorem AtKeyWait.tick {x : Reg} {s : State} (h : AtKeyWait x s) : AtKeyWait x (tick s) :=
  ⟨h.fetched, h.released⟩

/-! ## The statements about the instruction cycle (spec/40_instruction_cycle.md) -/

/-- Settles O10: every step answers as the table says. -/
theorem stepFaultsExactlyAsTabulated : Obligations.StepFaultsExactlyAsTabulated := by
  intro s
  have h := step_answers s
  exact ⟨fun f hf => by rwa [hf] at h, fun hf => by rwa [hf] at h⟩

/-- Settles O40: each step of the wait is a tick, and the wait goes on after it. -/
theorem keyWaitSpinsWhileTimersRun : Obligations.KeyWaitSpinsWhileTimersRun := by
  intro n x s hf hk
  have hrun := run_eq_tick_iterate (fun _ => AtKeyWait.step_eq) (fun _ => AtKeyWait.tick) n ⟨hf, hk⟩
  exact ⟨_, hrun, tick_iterate_pc n s, tick_iterate_dt n s, tick_iterate_st n s, tick_iterate_frame n s⟩

/-- Settles O43: each step is a tick, and the jump is still there after it. -/
theorem selfJumpOnlyRunsTheTimersDown : Obligations.SelfJumpOnlyRunsTheTimersDown := by
  intro n nnn s hf hn
  have hrun := run_eq_tick_iterate (fun _ => AtSelfJump.step_eq) (fun _ => AtSelfJump.tick) n ⟨hf, hn⟩
  exact ⟨_, hrun, tick_iterate_dt n s, tick_iterate_st n s, tick_iterate_frame n s⟩

/-- Settles O6: the fetch joins the two bytes, and the step is what their instruction's execute phase answers. -/
theorem stepRunsTheDecodedInstruction : Obligations.StepRunsTheDecodedInstruction := by
  intro s i hpc hd
  have hf : fetchDecode s = .ok i := fetchDecode_ok_iff.mpr ⟨hpc, decode_pair_ok_iff.mp hd⟩
  exact ⟨fun _ => step_of_exec_next hf, fun _ => step_of_exec_fault hf⟩

theorem tick_tone_iff {s : State} : (tick s).tone = true ↔ s.st.toNat = 1 := by
  rw [tick_tone, beq_iff_eq, ← BitVec.toNat_inj]
  rfl

/-- Settles O9: the step ends with the tick of what the execute phase left. -/
theorem everyCompletedStepTicks : Obligations.EveryCompletedStepTicks := fun _ u _ hf hu =>
  ⟨tick u, step_of_exec_next hf hu, countDown_toNat u.dt, countDown_toNat u.st, tick_tone_iff, rfl⟩

end Sys2Proof.Machine

/-! The statements about control transfer (spec/41_control_transfer.md). -/

namespace Sys2Proof.Machine

section Transfer

variable {i : Instr} {s : State}

/-- A target of 12 bits is the address it names. -/
theorem toNat_jumpTarget (nnn : BitVec 12) : (nnn.zeroExtend 16).toNat = nnn.toNat :=
  BitVec.toNat_setWidth_of_le (by decide)

/-- The highest target that `BNNN` reaches is 0xFFF + 0xFF, so the sum in 16 bits does not wrap (R118). -/
theorem toNat_indexedTarget (nnn : BitVec 12) (b : Byte) :
    (nnn.zeroExtend 16 + b.zeroExtend 16).toNat = nnn.toNat + b.toNat := by
  bv_omega

/-- An instruction whose execute phase skips on a test: with `yes` it goes two instructions on, with `no` one, and it
keeps everything else (R114 to R117). -/
theorem exec_skip_spec {b : Bool} {yes no : Prop} (h : exec i s = .next (s.skipIf b)) (hyes : yes → b = true)
    (hno : no → b = false) :
    ∃ t, exec i s = .next t ∧ (yes → t.pc = s.pc + 4) ∧ (no → t.pc = s.pc + 2) ∧ Keeps i s t := by
  refine ⟨_, h, fun hc => ?taken, fun hc => ?untaken, exec_keeps h⟩
  case taken => simp [hyes hc]
  case untaken => simp [hno hc]

end Transfer

/-- Settles O14: at depth 0 the return underflows, and from depth k + 1 it pops entry k. -/
theorem returnPopsTheStack : Obligations.ReturnPopsTheStack := by
  refine ⟨encodedAs_withFields .ret, fun s h => execRet_underflow (Fin.ext h), fun s k hk => ?_⟩
  have hpop := execRet_pop (s := s) (k := k) (Fin.ext hk)
  exact ⟨_, hpop, rfl, rfl, exec_keeps (i := .ret) hpop⟩

/-- Settles O16: at depth 16 the call overflows, and at depth k below it pushes P + 2 as entry k. -/
theorem callPushesTheReturnAddress : Obligations.CallPushesTheReturnAddress := by
  refine ⟨encodedAs_withFields (.call 0), fun nnn s h => execCall_overflow nnn (Fin.ext h), fun nnn s k hk => ?_⟩
  have hpush := execCall_push (s := s) nnn (k := k) (Fin.ext hk)
  exact ⟨_, hpush, Vector.getElem_set_self k.isLt, rfl, toNat_jumpTarget nnn, exec_keeps (i := .call nnn) hpush⟩

/-- Settles O15. -/
theorem jumpGoesToTheLiteral : Obligations.JumpGoesToTheLiteral :=
  ⟨encodedAs_withFields (.jp 0), fun nnn _ => ⟨_, rfl, toNat_jumpTarget nnn, exec_keeps rfl⟩⟩

/-- Settles O18: the test of 3XNN is `==` and that of 4XNN is `!=`. -/
theorem skipsOnALiteral : Obligations.SkipsOnALiteral :=
  ⟨encodedAs_withFields (.seImm 0 0), encodedAs_withFields (.sneImm 0 0),
    fun _ _ _ => exec_skip_spec rfl beq_iff_eq.mpr beq_eq_false_iff_ne.mpr,
    fun _ _ _ => exec_skip_spec rfl bne_iff_ne.mpr bne_eq_false_iff_eq.mpr⟩

/-- Settles O19: the test of 5XY0 is `==` and that of 9XY0 is `!=`; the low nibble of both is fixed (D11). -/
theorem skipsOnTwoRegisters : Obligations.SkipsOnTwoRegisters :=
  ⟨encodedAs_withFields (.seReg 0 0), encodedAs_withFields (.sneReg 0 0),
    fun _ _ _ => exec_skip_spec rfl beq_iff_eq.mpr beq_eq_false_iff_ne.mpr,
    fun _ _ _ => exec_skip_spec rfl bne_iff_ne.mpr bne_eq_false_iff_eq.mpr⟩

/-- Settles O20: the sum does not reach 2 to the 16, so it is that of the natural numbers. -/
theorem indexedJumpAddsV0 : Obligations.IndexedJumpAddsV0 :=
  ⟨encodedAs_withFields (.jpV0 0), fun nnn s => ⟨_, rfl, toNat_indexedTarget nnn (s.getV 0), exec_keeps rfl⟩⟩

end Sys2Proof.Machine

/-! The statements about register load and the ALU (spec/42_load_and_alu.md). -/

namespace Sys2Proof.Machine

/-! ## The results and the flags as numbers (R130) -/

theorem toNat_byteSub (a b : Byte) : (a - b).toNat = (a.toNat + 256 - b.toNat) % 256 := by
  bv_omega

theorem toNat_byteShiftRightOne (a : Byte) : (a >>> 1).toNat = a.toNat / 2 := by
  rw [BitVec.toNat_ushiftRight, Nat.shiftRight_eq_div_pow]

theorem toNat_byteShiftLeftOne (a : Byte) : (a <<< 1).toNat = a.toNat * 2 % 256 := by
  rw [BitVec.toNat_shiftLeft, Nat.shiftLeft_eq]

theorem toNat_carryFlag (a b : Byte) : (carryFlag a b).toNat = if 255 < a.toNat + b.toNat then 1 else 0 := by
  simp [carryFlag, flagByte_toNat]

theorem toNat_noBorrowFlag (a b : Byte) : (noBorrowFlag a b).toNat = if b.toNat ≤ a.toNat then 1 else 0 := by
  simp [noBorrowFlag, flagByte_toNat]

/-- The flag of a bit is the value of that bit. -/
theorem toNat_flagByte_getLsbD (a : Byte) (k : Nat) : (flagByte (a.getLsbD k)).toNat = a.toNat / 2 ^ k % 2 := by
  calc (flagByte (a.getLsbD k)).toNat
    _ = (a.toNat.testBit k).toNat := by rw [flagByte_toNat, BitVec.testBit_toNat, Bool.toNat, Bool.cond_eq_ite]
    _ = a.toNat / 2 ^ k % 2 := Nat.toNat_testBit a.toNat k

/-- The bit shifted out on the right is the remainder of the halving. -/
theorem toNat_lowBitFlag (a : Byte) : (lowBitFlag a).toNat = a.toNat % 2 := by
  have hbit : (lowBitFlag a).toNat = a.toNat / 2 ^ 0 % 2 := toNat_flagByte_getLsbD a 0
  omega

/-- The bit shifted out on the left is the carry of the doubling. -/
theorem toNat_highBitFlag (a : Byte) : (highBitFlag a).toNat = a.toNat / 128 := by
  have hbit : (highBitFlag a).toNat = a.toNat / 2 ^ 7 % 2 := toNat_flagByte_getLsbD a 7
  omega

/-- The shifted operand is the register that `SHIFT_SOURCE` names (R139, R141). -/
theorem shiftOperand_eq_getV (x y : Reg) (s : State) :
    shiftOperand x y s = s.getV (if Config.shiftSource = .vx then x else y) := by
  rw [shiftOperand_eq, apply_ite s.getV]

/-! ## The two shapes of an execute phase of this file -/

section Alu

variable {i : Instr} {s : State} {x : Reg} {r f : Byte}

/-- An instruction that writes a result and no flag: VX holds the result, F included (R131 to R136). -/
theorem exec_setV_spec (h : exec i s = .next (s.setV x r).advance) :
    ∃ t, exec i s = .next t ∧ t.getV x = r ∧ t.pc = s.pc + 2 ∧ Keeps i s t :=
  ⟨_, h, State.setV_getV_same x r, rfl, exec_keeps h⟩

/-- The same with the result given bit by bit (R134 to R136). -/
theorem exec_setV_bits_spec {bit : Nat → Bool} (h : exec i s = .next (s.setV x r).advance)
    (hr : ∀ j, r.getLsbD j = bit j) :
    ∃ t, exec i s = .next t ∧ (∀ j < 8, (t.getV x).getLsbD j = bit j) ∧ t.pc = s.pc + 2 ∧ Keeps i s t := by
  obtain ⟨t, ht, hv, hrest⟩ := exec_setV_spec h
  exact ⟨t, ht, fun j _ => by rw [hv, hr], hrest⟩

/-- An instruction that writes a result and then a flag (R95): VF holds the flag, and VX the result unless X is F, where
the flag is what stays (D14). -/
theorem exec_setVThenFlag_spec {result flag : Nat} (h : exec i s = .next (s.setVThenFlag x r f).advance)
    (hr : r.toNat = result) (hf : f.toNat = flag) :
    ∃ t, exec i s = .next t ∧ (x ≠ 0xF → (t.getV x).toNat = result) ∧ (t.getV 0xF).toNat = flag ∧
      t.pc = s.pc + 2 ∧ Keeps i s t := by
  refine ⟨_, h, fun hx => ?result, ?flag, rfl, exec_keeps h⟩
  case result => rw [State.advance_getV, State.setVThenFlag_getV, if_neg hx, if_pos rfl, hr]
  case flag => rw [State.advance_getV, State.setVThenFlag_getV, if_pos rfl, hf]

end Alu

/-! ## The statements -/

/-- Settles O23: each of the four writes one result, and the logic of bytes is that of their bits. -/
theorem assignAndLogicLeaveFlag : Obligations.AssignAndLogicLeaveFlag :=
  ⟨encodedAs_withFields (.ldReg 0 0), encodedAs_withFields (.orReg 0 0), encodedAs_withFields (.andReg 0 0),
    encodedAs_withFields (.xorReg 0 0), fun _ _ _ =>
    ⟨exec_setV_spec rfl, exec_setV_bits_spec rfl fun _ => BitVec.getLsbD_or,
      exec_setV_bits_spec rfl fun _ => BitVec.getLsbD_and, exec_setV_bits_spec rfl fun _ => BitVec.getLsbD_xor⟩⟩

/-- Settles O24. -/
theorem addRegistersCarriesIntoFlag : Obligations.AddRegistersCarriesIntoFlag :=
  ⟨encodedAs_withFields (.addReg 0 0), fun x y s =>
    exec_setVThenFlag_spec rfl (BitVec.toNat_add _ _) (toNat_carryFlag (s.getV x) (s.getV y))⟩

/-- Settles O25: the two subtractions are one with the operands exchanged. -/
theorem subtractionsPutNoBorrowIntoFlag : Obligations.SubtractionsPutNoBorrowIntoFlag :=
  ⟨encodedAs_withFields (.subReg 0 0), encodedAs_withFields (.subnReg 0 0),
    fun _ _ _ => exec_setVThenFlag_spec rfl (toNat_byteSub _ _) (toNat_noBorrowFlag _ _),
    fun _ _ _ => exec_setVThenFlag_spec rfl (toNat_byteSub _ _) (toNat_noBorrowFlag _ _)⟩

/-- Settles O26: both shifts read the register that `SHIFT_SOURCE` names, whichever that is. -/
theorem shiftsPutTheLostBitIntoFlag : Obligations.ShiftsPutTheLostBitIntoFlag := by
  refine ⟨encodedAs_withFields (.shr 0 0), encodedAs_withFields (.shl 0 0), fun x y s => ?right, fun x y s => ?left⟩
  all_goals rw [← shiftOperand_eq_getV]
  case right => exact exec_setVThenFlag_spec rfl (toNat_byteShiftRightOne _) (toNat_lowBitFlag _)
  case left => exact exec_setVThenFlag_spec rfl (toNat_byteShiftLeftOne _) (toNat_highBitFlag _)

/-- Settles O21. -/
theorem loadLiteralWritesTheByte : Obligations.LoadLiteralWritesTheByte :=
  ⟨encodedAs_withFields (.ldImm 0 0), fun _ _ _ => exec_setV_spec rfl⟩

/-- Settles O22: the sum of bytes is the sum modulo 256, and no flag is written after it. -/
theorem addLiteralWrapsWithoutFlag : Obligations.AddLiteralWrapsWithoutFlag := by
  refine ⟨encodedAs_withFields (.addImm 0 0), fun x nn s => ?_⟩
  obtain ⟨t, ht, hv, hrest⟩ := exec_setV_spec (i := .addImm x nn) (s := s) rfl
  exact ⟨t, ht, by rw [hv, BitVec.toNat_add], hrest⟩

/-- Settles O27: the draw is counted after the masked byte is written. -/
theorem randomByteIsMaskedAndFresh : Obligations.RandomByteIsMaskedAndFresh := by
  refine ⟨encodedAs_withFields (.rnd 0 0), fun x nn s => ⟨_, rfl, fun j _ => ?_, rfl, rfl, exec_keeps rfl⟩⟩
  rw [State.advance_getV, State.countDraw_getV, State.setV_getV_same, BitVec.getLsbD_and]

end Sys2Proof.Machine

/-! The statements about the index register and memory (spec/43_index_and_memory.md). -/

namespace Sys2Proof.Machine

/-! ## The index register and the flag of FX1E as numbers -/

theorem toNat_addIndex (i : Word) (a : Byte) : (i + a.zeroExtend 16).toNat = (i.toNat + a.toNat) % 65536 := by
  rw [BitVec.toNat_add, BitVec.toNat_setWidth_of_le (by decide)]

theorem toNat_indexOverflowFlag (i : Word) (a : Byte) :
    (indexOverflowFlag i a).toNat = if 0x0FFF < i.toNat + a.toNat then 1 else 0 := by
  simp [indexOverflowFlag, flagByte_toNat]

/-- The highest glyph address is 5 times 255, so the product in 16 bits does not wrap (R153). -/
theorem toNat_glyphIndex (a : Byte) : (a.zeroExtend 16 * 5).toNat = a.toNat * 5 := by
  bv_omega

/-- The index past a block that fits is at most 0x1000, so it does not wrap (R155, R156). -/
theorem toNat_indexPast {x : Reg} {s : State} (h : s.i.toNat + x.val ≤ 0xFFF) :
    (indexPast x s).toNat = s.i.toNat + x.val + 1 := by
  have hx : x.val + 1 < 2 ^ 16 := by omega
  rw [indexPast, BitVec.toNat_add, BitVec.toNat_ofNat, Nat.mod_eq_of_lt hx]
  omega

/-! ## Execute phases by the table of conditions (R200) -/

theorem exec_fault_of_table {i : Instr} {s : State} {f : Fault} (h : executeFault i s = some f) :
    exec i s = .fault f := by
  have hanswer := exec_answers i s
  rwa [h] at hanswer

theorem exec_completes_of_table {i : Instr} {s : State} (h : executeFault i s = none) : ∃ t, exec i s = .next t := by
  have hanswer := exec_answers i s
  rwa [h] at hanswer

/-! ## The bytes of a transferred block -/

/-- The digits stored by `FX33`, read back (R154). -/
theorem read_writeBlock_decimalDigits {m : Memory} (hm : m.wf) {a : Nat} (h : a + 3 ≤ 4096) (b : Byte) (k : Nat)
    (hk : k < 3) :
    ((m.writeBlock a (decimalDigits b)).read (a + k)).toNat =
      [b.toNat / 100, b.toNat / 10 % 10, b.toNat % 10][k] := by
  rw [Memory.read_writeBlock_inside (bs := decimalDigits b) hm h k hk]
  exact (List.getElem_map BitVec.toNat).symm.trans (List.getElem_of_eq (decimalDigits_value b) hk)

/-- The registers stored by `FX55`, read back (R155). -/
theorem read_writeBlock_registerBlock {x k : Reg} {s : State} (hm : s.mem.wf) (h : s.i.toNat + (x.val + 1) ≤ 4096)
    (hk : k ≤ x) : (s.mem.writeBlock s.i.toNat (registerBlock x s)).read (s.i.toNat + k.val) = s.getV k := by
  have hlen : k.val < (registerBlock x s).length := by
    rw [registerBlock_length]
    exact Nat.lt_succ_of_le hk
  rw [Memory.read_writeBlock_inside hm (by rwa [registerBlock_length]) k.val hlen, registerBlock_getElem]

/-! ## The statements -/

/-- Settles O31: the digits are read back from the block that the bound check let through. -/
theorem decimalDigitsAreStored : Obligations.DecimalDigitsAreStored := by
  refine ⟨encodedAs_withFields (.ldB 0), fun x s h => exec_fault_of_table (if_pos h), fun x s h => ?_⟩
  obtain ⟨t, ht⟩ := exec_completes_of_table (i := .ldB x) (s := s) (if_neg (Nat.not_lt.mpr h))
  obtain ⟨hfit, rfl⟩ := execLdB_next ht
  refine ⟨_, ht, fun hm => ?_, rfl, exec_keeps ht⟩
  have hdigit := read_writeBlock_decimalDigits hm hfit (s.getV x)
  exact ⟨hdigit 0 (by decide), hdigit 1 (by decide), hdigit 2 (by decide)⟩

/-- Settles O32: the registers are read back from the block that the bound check let through. -/
theorem registersAreStoredAndIndexAdvances : Obligations.RegistersAreStoredAndIndexAdvances := by
  refine ⟨encodedAs_withFields (.storeRegs 0), fun x s h => exec_fault_of_table (if_pos h), fun x s h => ?_⟩
  obtain ⟨t, ht⟩ := exec_completes_of_table (i := .storeRegs x) (s := s) (if_neg (Nat.not_lt.mpr h))
  obtain ⟨hfit, rfl⟩ := execStoreRegs_next ht
  exact ⟨_, ht, fun hm _ hk => read_writeBlock_registerBlock hm hfit hk, toNat_indexPast h, rfl, exec_keeps ht⟩

/-- Settles O33: where the bound check lets the block through, each register up to VX takes its byte. -/
theorem registersAreLoadedAndIndexAdvances : Obligations.RegistersAreLoadedAndIndexAdvances := by
  refine ⟨encodedAs_withFields (.loadRegs 0), fun x s h => exec_fault_of_table (if_pos h), fun x s h => ?_⟩
  obtain ⟨t, ht⟩ := exec_completes_of_table (i := .loadRegs x) (s := s) (if_neg (Nat.not_lt.mpr h))
  obtain rfl := execLoadRegs_next ht
  refine ⟨_, ht, fun k hk => ?_, toNat_indexPast h, rfl, exec_keeps ht⟩
  rw [State.advance_getV, State.setI_getV, State.setRegs_getV, loadedRegisters_getElem, if_pos hk]

/-- Settles O34: the load takes each register from its byte of the block that the store left. -/
theorem loadedBlockIsTheStoredBlock : Obligations.LoadedBlockIsTheStoredBlock := by
  intro x s t u hm h hmem hi
  obtain ⟨hfit, rfl⟩ := execStoreRegs_next h
  obtain ⟨-, -, hload⟩ := registersAreLoadedAndIndexAdvances
  obtain ⟨w, hw, hv, -⟩ := hload x u (by rw [hi]; omega)
  refine ⟨w, hw, fun k hk => ?_⟩
  rw [hv k hk, hmem, hi]
  exact read_writeBlock_registerBlock hm hfit hk

/-- Settles O29: the flag is written last and is of the unreduced sum (D16). -/
theorem addToIndexFlagsPastMemory : Obligations.AddToIndexFlagsPastMemory := by
  refine ⟨encodedAs_withFields (.addI 0), fun x s => ⟨_, rfl, toNat_addIndex s.i (s.getV x), ?_, rfl, exec_keeps rfl⟩⟩
  rw [State.advance_getV, State.setV_getV_same, toNat_indexOverflowFlag]

/-- Settles O28. -/
theorem loadIndexWritesTheLiteral : Obligations.LoadIndexWritesTheLiteral :=
  ⟨encodedAs_withFields (.ldI 0), fun nnn _ => ⟨_, rfl, toNat_jumpTarget nnn, rfl, exec_keeps rfl⟩⟩

/-- Settles O30: the glyph of a digit ends below byte 80 of the font, and the instruction leaves memory alone. -/
theorem glyphAddressIsFiveTimesTheDigit : Obligations.GlyphAddressIsFiveTimesTheDigit := by
  refine ⟨encodedAs_withFields (.ldF 0), fun x s => ?_⟩
  have hindex := toNat_glyphIndex (s.getV x)
  refine ⟨_, rfl, hindex, rfl, exec_keeps rfl, fun hfont hdigit j hj => ?_⟩
  rw [State.advance_mem, State.setI_mem, State.advance_i, State.setI_i, hindex]
  exact hfont _ (by omega)

end Sys2Proof.Machine

/-! The statements about the display (spec/44_display.md). -/

namespace Sys2Proof.Machine

section Draw

variable {x y : Reg} {n : Nat} {s t : State} {px : Fin 64} {py : Fin 32}

/-! ## What DXYN draws, in terms of the sprite (R172) -/

theorem mem_spritePixels_iff_spriteCovers :
    (px, py) ∈ spritePixels s.mem s.i.toNat (s.getV x).toNat (s.getV y).toNat n ↔ SpriteCovers s x y n px py :=
  mem_spritePixels

/-- A sprite that is well formed does not overlap itself, so each pixel is flipped once or not at all. -/
theorem drawnSprite_pixel (hn : n ≤ 15) :
    (drawnSprite x y n s).1.pixel px py = true ↔ ¬(s.fb.pixel px py = true ↔ SpriteCovers s x y n px py) := by
  rw [drawnSprite, drawPixels_pixel (spritePixels_nodup _ _ _ _ hn), Bool.xor_iff_ne, Ne, Bool.eq_iff_iff,
    decide_eq_true_iff, mem_spritePixels_iff_spriteCovers]

theorem drawnSprite_collision (hn : n ≤ 15) :
    (drawnSprite x y n s).2 = true ↔ ∃ px py, s.fb.pixel px py = true ∧ SpriteCovers s x y n px py := by
  rw [drawnSprite, drawPixels_collision (spritePixels_nodup _ _ _ _ hn), List.any_eq_true, Prod.exists]
  simp only [mem_spritePixels_iff_spriteCovers, and_comm]

/-! ## What a completed DXYN leaves -/

theorem exec_drw_pixel (hn : n ≤ 15) (h : exec (.drw x y n) s = .next t) :
    t.fb.pixel px py = true ↔ ¬(s.fb.pixel px py = true ↔ SpriteCovers s x y n px py) := by
  obtain rfl := execDrw_next h
  exact drawnSprite_pixel hn

theorem exec_drw_flag (hn : n ≤ 15) (h : exec (.drw x y n) s = .next t) :
    t.getV 0xF = 1 ↔ ∃ px py, s.fb.pixel px py = true ∧ SpriteCovers s x y n px py := by
  obtain rfl := execDrw_next h
  rw [State.advance_getV, State.setV_getV_same, flagByte_eq_one_iff, drawnSprite_collision hn]

/-- A draw leaves its sprite and the sprite's place as they are, unless VF gives the place. -/
theorem exec_drw_spriteCovers (hx : x ≠ 0xF) (hy : y ≠ 0xF) (h : exec (.drw x y n) s = .next t) :
    SpriteCovers t x y n px py ↔ SpriteCovers s x y n px py := by
  obtain rfl := execDrw_next h
  simp [SpriteCovers, State.setV_getV_other _ hx, State.setV_getV_other _ hy]

end Draw

/-! ## The statements -/

/-- Settles O36: the bound check lets the sprite through or raises the condition, and what is drawn is an XOR. -/
theorem drawXorsTheSprite : Obligations.DrawXorsTheSprite := by
  refine ⟨encodedAs_withFields (.drw 0 0 0), fun x y n s hn h => exec_fault_of_table (if_pos ⟨hn, h⟩),
    fun x y n s hn hfit => ?_⟩
  obtain ⟨t, ht⟩ := exec_completes_of_table (i := .drw x y n) (s := s) (if_neg (by omega))
  have hflag := exec_drw_flag hn ht
  refine ⟨t, ht, fun px py => exec_drw_pixel hn ht, hflag.mpr, fun hnone => ?noCollision, ?draw, ?pc, exec_keeps ht⟩
  case noCollision =>
    obtain ⟨hzeroOrOne, -⟩ := flagRegisterIsWrittenByFlagInstructions _ s t ht
    obtain h0 | h1 := hzeroOrOne rfl
    · exact h0
    · obtain ⟨px, py, hset, hcover⟩ := hflag.mp h1
      exact absurd hcover (hnone px py hset)
  all_goals
    obtain rfl := execDrw_next ht
    rfl

/-- Settles O37: the second draw flips the pixels that the first flipped, and finds set those that the first set. -/
theorem drawingTwiceRestoresTheFramebuffer : Obligations.DrawingTwiceRestoresTheFramebuffer := by
  intro x y n s t u hn hx hy ht hu
  refine ⟨Framebuffer.ext_pixel fun px py => ?restored, ?collision⟩
  case restored =>
    have hsecond := exec_drw_pixel (px := px) (py := py) hn hu
    rw [exec_drw_pixel hn ht, exec_drw_spriteCovers hx hy ht] at hsecond
    rw [Bool.eq_iff_iff]
    tauto
  case collision =>
    rintro ⟨px, py, hclear, hset⟩
    refine (exec_drw_flag hn hu).mpr ⟨px, py, hset, (exec_drw_spriteCovers hx hy ht).mpr ?_⟩
    simpa [hclear] using (exec_drw_pixel hn ht).mp hset

/-- Settles O35. -/
theorem clearUnsetsEveryPixel : Obligations.ClearUnsetsEveryPixel :=
  ⟨encodedAs_withFields .cls, fun _ => ⟨_, rfl, Framebuffer.pixel_clear, rfl, rfl, exec_keeps rfl⟩⟩

end Sys2Proof.Machine

/-! The statements about keys and timers (spec/45_keys_and_timers.md). -/

namespace Sys2Proof.Machine

section Keys

variable {x : Reg} {s : State} {k : Fin 16}

/-! ## The key instructions, by the key they look up -/

theorem execSkp_keyOf_ok (h : (s.getV x).toNat = k.val) : execSkp x s = .next (s.skipIf s.keys[k]) := by
  rw [execSkp, keyOf_ok h]

theorem execSknp_keyOf_ok (h : (s.getV x).toNat = k.val) : execSknp x s = .next (s.skipIf (!s.keys[k])) := by
  rw [execSknp, keyOf_ok h]

/-- With no key down the wait writes nothing, `PC` included (D20). -/
theorem execLdVxK_released (h : ∀ k : Fin 16, s.keys[k] = false) : execLdVxK x s = .next s := by
  rw [execLdVxK, lowestPressed_eq_none_iff.mpr h]

theorem execLdVxK_lowest (hk : s.keys[k] = true) (hlow : ∀ j : Fin 16, j < k → s.keys[j] = false) :
    execLdVxK x s = .next (s.setV x (BitVec.ofNat 8 k.val)).advance := by
  rw [execLdVxK, lowestPressed_eq_some_iff.mpr ⟨hk, hlow⟩]

/-- The index of a key fits in a byte. -/
theorem toNat_keyIndex (k : Fin 16) : (BitVec.ofNat 8 k.val).toNat = k.val := by
  rw [BitVec.toNat_ofNat, Nat.mod_eq_of_lt (k.isLt.trans (by decide))]

end Keys

/-! ## The statements -/

/-- Settles O38: the table of conditions has the fault (D21), and EX9E skips on the key's level, EXA1 on its negation. -/
theorem keySkipsTestTheNamedKey : Obligations.KeySkipsTestTheNamedKey := by
  refine ⟨encodedAs_withFields (.skp 0), encodedAs_withFields (.sknp 0), fun x s h => ?fault, fun x s k hk => ?level⟩
  case fault => exact ⟨exec_fault_of_table (if_pos h), exec_fault_of_table (if_pos h)⟩
  case level =>
    constructor
    · exact exec_skip_spec (execSkp_keyOf_ok hk) id id
    · exact exec_skip_spec (execSknp_keyOf_ok hk) (Bool.not_eq_true' _).mpr (Bool.not_eq_false' _).mpr

/-- Settles O39: the wait takes the lowest pressed key, whose index fits in VX. -/
theorem keyWaitTakesTheLowestKey : Obligations.KeyWaitTakesTheLowestKey := by
  refine ⟨encodedAs_withFields (.ldVxK 0), fun x s h => execLdVxK_released h, fun x s k hk hlow => ?_⟩
  obtain ⟨t, ht, hv, hrest⟩ := exec_setV_spec (i := .ldVxK x) (execLdVxK_lowest hk hlow)
  exact ⟨t, ht, by rw [hv, toNat_keyIndex], hrest⟩

/-- Settles O41: VX takes DT, which is still there for the tick to count down. -/
theorem delayTimerIsReadBeforeTheTick : Obligations.DelayTimerIsReadBeforeTheTick :=
  ⟨encodedAs_withFields (.ldVxDt 0), fun x s =>
    ⟨_, rfl, State.setV_getV_same x s.dt, countDown_toNat s.dt, rfl, exec_keeps rfl⟩⟩

/-- Settles O42: the tick finds VX in the timer, so it counts VX down, and `TONE` tells whether VX is 1 (D25). -/
theorem timersAreSetBeforeTheTick : Obligations.TimersAreSetBeforeTheTick :=
  ⟨encodedAs_withFields (.ldDtVx 0), encodedAs_withFields (.ldStVx 0),
    fun x s => ⟨_, rfl, rfl, countDown_toNat (s.getV x), rfl, exec_keeps rfl⟩,
    fun x s => ⟨_, rfl, rfl, countDown_toNat (s.getV x), tick_tone_iff, rfl, exec_keeps rfl⟩⟩

end Sys2Proof.Machine

/-! The statement about the ports of the host (spec/60_exceptions.md). -/

namespace Sys2Proof.Machine

section HostPorts

variable {s : State} {x y : Nat}

/-! ## The pixel ports -/

/-- The port's coordinates of 6 and 5 bits hold every coordinate of the screen. -/
theorem framebufferPixel_ofNat (s : State) (x : Fin 64) (y : Fin 32) :
    framebufferPixel s (BitVec.ofNat 6 x.val) (BitVec.ofNat 5 y.val) = s.fb.pixel x y := by
  have hx : (BitVec.ofNat 6 x.val).toFin = x := Fin.ext (Nat.mod_eq_of_lt x.isLt)
  have hy : (BitVec.ofNat 5 y.val).toFin = y := Fin.ext (Nat.mod_eq_of_lt y.isLt)
  rw [framebufferPixel, hx, hy]

theorem framebufferPixelChecked_ok (hx : x ≤ 63) (hy : y ≤ 31) :
    framebufferPixelChecked s x y = .ok (framebufferPixel s (BitVec.ofNat 6 x) (BitVec.ofNat 5 y)) := by
  rw [framebufferPixelChecked, if_neg hx.not_gt, if_neg hy.not_gt]

theorem framebufferPixelChecked_column_fault (hx : 63 < x) :
    framebufferPixelChecked s x y = .error (.outOfBounds x) := if_pos hx

theorem framebufferPixelChecked_row_fault (hx : x ≤ 63) (hy : 31 < y) :
    framebufferPixelChecked s x y = .error (.outOfBounds y) := by
  rw [framebufferPixelChecked, if_neg hx.not_gt, if_pos hy]

/-- A coordinate outside the screen is rejected, whichever of the two it is (R215, D26). -/
theorem framebufferPixelChecked_fault (h : 63 < x ∨ 31 < y) :
    ∃ n, framebufferPixelChecked s x y = .error (.outOfBounds n) := by
  rcases Nat.lt_or_ge 63 x with hx | hx
  · exact ⟨x, framebufferPixelChecked_column_fault hx⟩
  · exact ⟨y, framebufferPixelChecked_row_fault hx (h.resolve_left hx.not_gt)⟩

end HostPorts

/-! ## The statement -/

/-- Settles O55: the checked port has a rule for each of its branches, and the flag's two operations are the flag's read
and write (R216). -/
theorem hostPortsReadPixelsAndRedrawFlag : Obligations.HostPortsReadPixelsAndRedrawFlag := by
  refine fun s => ⟨fun x y => ?inside, fun x y h => framebufferPixelChecked_fault h, rfl, rfl, rfl⟩
  case inside =>
    rw [framebufferPixelChecked_ok (Nat.le_of_lt_succ x.isLt) (Nat.le_of_lt_succ y.isLt), framebufferPixel_ofNat]

end Sys2Proof.Machine

/-! The statements about power-on, reset and the host's writes of memory (spec/70_reset_and_hazards.md). -/

namespace Sys2Proof.Machine

/-! ## A memory known by its reads -/

/-- A canonical memory that reads as the block inside it, and as `m` outside it, is `m` with the block written. -/
theorem Memory.eq_writeBlock {m m' : Memory} (hm : m.wf) (hm' : m'.wf) {a : Nat} {bs : List Byte}
    (hfit : a + bs.length ≤ 4096) (hin : ∀ k (hk : k < bs.length), m'.read (a + k) = bs[k])
    (hout : ∀ c, c < a ∨ a + bs.length ≤ c → m'.read c = m.read c) : m' = m.writeBlock a bs := by
  refine Memory.ext_read hm' (Memory.writeBlock_wf hm hfit) fun c => ?_
  by_cases hc : c < a ∨ a + bs.length ≤ c
  case pos => rw [hout c hc, Memory.read_writeBlock_outside m hc]
  case neg =>
    obtain ⟨k, rfl⟩ := Nat.exists_eq_add_of_le (Nat.not_lt.mp fun h => hc (.inl h))
    have hk : k < bs.length := by omega
    rw [hin k hk, Memory.read_writeBlock_inside hm hfit k hk]

/-- Writing a block a second time changes nothing. -/
theorem Memory.writeBlock_writeBlock_self {m : Memory} (hm : m.wf) {a : Nat} {bs : List Byte}
    (hfit : a + bs.length ≤ 4096) : (m.writeBlock a bs).writeBlock a bs = m.writeBlock a bs :=
  have hw := Memory.writeBlock_wf hm hfit
  (Memory.eq_writeBlock hw hw hfit (Memory.read_writeBlock_inside hm hfit) fun _ _ => rfl).symm

/-! ## Power-on and reset -/

theorem Memory.wf_nil : Memory.wf [] := ⟨.nil, by simp⟩

/-- Power-on writes zeros over the font, and above it unwritten memory reads as zero (R231, D4). -/
theorem powerOn_read (a : Nat) : State.powerOn.mem.read a = 0 := by
  rcases Nat.lt_or_ge a 80 with ha | ha
  · have hzero := Memory.read_writeBlock_inside Memory.wf_nil (a := 0) (bs := List.replicate 80 0x00) (by simp)
      a (by simpa using ha)
    rwa [Nat.zero_add, List.getElem_replicate] at hzero
  · exact (Memory.read_writeBlock_outside [] (.inr (by simpa using ha))).trans (Memory.unlisted_above_font ha)

theorem inv_reset : Inv State.reset :=
  ⟨Memory.wf_nil, by decide, fun k hk => absurd hk k.val.not_lt_zero⟩

/-- The font over the zeros of power-on is the memory of reset, which lists nothing: both read as the font in its 80
bytes and as zero above them. -/
theorem writeBlock_fontTable_powerOn : State.powerOn.mem.writeBlock 0 fontTable = State.reset.mem := by
  refine (Memory.eq_writeBlock inv_powerOn.1 Memory.wf_nil (by simp [fontTable_length]) (fun k hk => ?font)
    fun c hc => ?above).symm
  case font =>
    rw [Nat.zero_add]
    exact List.getD_eq_getElem _ _ hk
  case above =>
    rw [fontTable_length] at hc
    exact (Memory.unlisted_above_font (by omega)).trans (powerOn_read c).symm

/-- Reset is power-on followed by `initialize` (R233): besides memory, only `PC` differs between the two states. -/
theorem hostInitialize_powerOn : hostInitialize State.powerOn = State.reset := by
  rw [hostInitialize, hostInitializeWith, writeBlock_fontTable_powerOn]
  rfl

/-! ## The two writes of memory -/

section HostWrites

variable {s : State}

theorem hostInitializeWith_read_font (hm : s.mem.wf) (font : Vector Byte 80) (k : Fin 80) :
    (hostInitializeWith font.toList s).mem.read k.val = font[k] := by
  have hread := Memory.read_writeBlock_inside hm (a := 0) (bs := font.toList) (by simp) k.val (by simp)
  rwa [Nat.zero_add, Vector.getElem_toList] at hread

theorem hostInitializeWith_read_above (font : Vector Byte 80) {a : Nat} (ha : 80 ≤ a) :
    (hostInitializeWith font.toList s).mem.read a = s.mem.read a :=
  Memory.read_writeBlock_outside s.mem (.inr (by simpa using ha))

/-- `initialize` a second time finds its own writes. -/
theorem hostInitializeWith_idem (hm : s.mem.wf) (font : Vector Byte 80) :
    hostInitializeWith font.toList (hostInitializeWith font.toList s) = hostInitializeWith font.toList s := by
  have hmem := Memory.writeBlock_writeBlock_self hm (a := 0) (bs := font.toList) (by simp)
  simp only [hostInitializeWith, hmem]

theorem hostLoadProgram_rejected {bytes : List Byte} (h : 4096 < 0x200 + bytes.length) :
    hostLoadProgram bytes s = .fault (.outOfBounds bytes.length) := if_pos h

theorem hostLoadProgram_loaded {bytes : List Byte} (h : 0x200 + bytes.length ≤ 4096) :
    hostLoadProgram bytes s = .next { s with mem := s.mem.writeBlock 0x200 bytes } := if_neg h.not_gt

end HostWrites

/-! ## The statements -/

/-- Settles O53: the font is one block at 0x000, so it is read back, leaves the bytes above it alone, and written again
changes nothing. -/
theorem initializeWritesFontAndEntry : Obligations.InitializeWritesFontAndEntry :=
  fun font _ hm => ⟨rfl, hostInitializeWith_read_font hm font, fun _ ha => hostInitializeWith_read_above font ha,
    Framebuffer.pixel_clear, rfl, rfl, hostInitializeWith_idem hm font⟩

/-- Settles O54: an image that the bound check lets through is one block at 0x200. -/
theorem programIsLoadedWholeOrRejected : Obligations.ProgramIsLoadedWholeOrRejected :=
  fun _ s => ⟨hostLoadProgram_rejected, fun hfit => ⟨_, hostLoadProgram_loaded hfit, rfl,
    fun hm => Memory.read_writeBlock_inside hm hfit, fun _ ha => Memory.read_writeBlock_outside s.mem ha⟩⟩

/-- Settles O48. -/
theorem invariantHoldsAtPowerOnAndReset : Obligations.InvariantHoldsAtPowerOnAndReset :=
  ⟨inv_powerOn, inv_reset⟩

/-- Settles O52: the composition, and the values of the two states; memory at reset is all unlisted. -/
theorem resetIsPowerOnThenInitialize : Obligations.ResetIsPowerOnThenInitialize := by
  refine ⟨hostInitialize_powerOn, fun a _ => powerOn_read a, rfl, rfl, fun _ _ => rfl,
    fun _ ha _ => Memory.unlisted_above_font ha, fun k => ?registers, rfl, rfl, fun k => ?stack, rfl, rfl,
    Framebuffer.pixel_clear, rfl⟩
  case registers => exact Vector.getElem_replicate k.isLt
  case stack => exact Vector.getElem_replicate k.isLt

end Sys2Proof.Machine
